-- ==== Sys2Proof/Word.lean ====
section
/-! DEFINITION. The word types of the block: the 32-bit instruction word, its fields and the bytes of a text line. -/

namespace Sys2Proof

/-- An instruction word: an exact 32-bit unsigned value (R6, R21, R60). -/
abbrev Word := BitVec 32

/-- One byte of a line, of a serialised word or of a bit string (R10, R41). -/
abbrev Byte := BitVec 8

/-- A finite sequence of bytes: a line, a token, a rendered text, a byte stream (R10). -/
abbrev Bytes := List Byte

/-- A 5-bit register index. It names a field of a translated instruction, never a storage cell (R22, R28, R65). -/
abbrev RegIdx := BitVec 5

/-- A 6-bit primary operation selector (R61, R62). -/
abbrev Opcode := BitVec 6

/-- A 6-bit function code, the secondary selector of the R format (R24, R61). -/
abbrev Funct := BitVec 6

/-- The ASCII bytes of some characters (R10). -/
def ascii (cs : List Char) : Bytes := cs.map fun c => BitVec.ofNat 8 c.toNat

end Sys2Proof
end

