-- ==== Sys2Proof/Machine/Results.lean ====
section
/-! DEFINITION. What a transaction returns: the results of the ports (R11, R30, R31), the framing adapters' result (R44, R45),
and the eight error kinds with their payloads (R200, R201). An error is a result and nothing else (R202): no trap, no state. -/

namespace Sys2Proof

/-- The eight error kinds (R200). -/
inductive ErrKind where
  /-- Encoder: the first token is in no table (R105). -/
  | unknownInstruction
  /-- Encoder: operand text that is no register name (R107). Decoder: a register field with no name (R142, R143). -/
  | unknownRegister
  /-- Decoder: a nonzero opcode of no `ITable` row (R143). -/
  | unknownOpcode
  /-- Decoder: opcode 0 and a function code of no `RTable` row (R142). -/
  | unknownFunction
  /-- Encoder: wrong token count or missing memory-operand delimiters (R110 to R113). -/
  | malformedOperands
  /-- Encoder: offset text that is no integer or out of range (R108, R109). -/
  | invalidOffset
  /-- Framing: a length that is no multiple of a word, or a character that is no binary digit (R44, R45). -/
  | invalidWordLength
  /-- Framing: a zero-length stream (R44, R45). -/
  | emptyInput
  deriving DecidableEq, Repr

/-- The numeric code of a kind, in the order of R200's table (the spec's own numbers, D15). -/
def ErrKind.code : ErrKind → Nat
  | .unknownInstruction => 1
  | .unknownRegister => 2
  | .unknownOpcode => 3
  | .unknownFunction => 4
  | .malformedOperands => 5
  | .invalidOffset => 6
  | .invalidWordLength => 7
  | .emptyInput => 8

/-- What an error carries (R201). -/
inductive Payload where
  | text (bytes : Bytes)
  | field (n : Nat)
  | length (n : Nat)
  | noPayload
  deriving DecidableEq, Repr

/-- `Error(kind, payload)` (R11). -/
structure Err where
  kind    : ErrKind
  payload : Payload
  deriving DecidableEq, Repr

/-- The Encoder's result (R30). -/
inductive EncResult where
  /-- a blank or comment-only line -/
  | empty
  /-- exactly one instruction word -/
  | word (w : Word)
  | error (e : Err)
  deriving DecidableEq, Repr

/-- The Decoder's result (R31). -/
inductive DecResult where
  /-- exactly one line of assembly, no terminator -/
  | text (s : Bytes)
  | error (e : Err)
  deriving DecidableEq, Repr

/-- A stream given to a framing adapter: bytes (R44) or a raw bit string (R45). -/
inductive Stream where
  | byteStream (b : Bytes)
  | bitString (t : Bytes)
  deriving DecidableEq, Repr

/-- A framing adapter's result: the words of the stream in order, or one error for the whole stream (R44, R45). -/
inductive FrameResult where
  | words (ws : List Word)
  | error (e : Err)
  deriving DecidableEq, Repr

/-! ### One error of each kind, with the payload of R114, R147, R44 and R45 -/

def unknownInstruction (m : Bytes) : Err := ⟨.unknownInstruction, .text m⟩
def unknownRegText (t : Bytes) : Err := ⟨.unknownRegister, .text t⟩
def unknownRegField (r : RegIdx) : Err := ⟨.unknownRegister, .field r.toNat⟩
def unknownOpcode (op : Opcode) : Err := ⟨.unknownOpcode, .field op.toNat⟩
def unknownFunction (f : Funct) : Err := ⟨.unknownFunction, .field f.toNat⟩
def malformedOperands (line : Bytes) : Err := ⟨.malformedOperands, .text line⟩
def invalidOffset (t : Bytes) : Err := ⟨.invalidOffset, .text t⟩
def invalidWordLength (n : Nat) : Err := ⟨.invalidWordLength, .length n⟩
def emptyInput : Err := ⟨.emptyInput, .noPayload⟩

end Sys2Proof
end

