-- ==== Sys2Proof/Config.lean ====
section
/-! DEFINITION. The parameters a model of the block takes (R5): the Encoding Table, the lexical parameters, the bound on
a line's length, and the host's output policy. Their defaults, lookups and laws stand in Machine/Tables.lean. -/

namespace Sys2Proof

/-- The textual operand order of an I-type mnemonic (R25, R73). -/
inductive Shape where
  | memory
  | branch
  deriving DecidableEq, Repr

/-- The domain of `ITable`: exactly these four mnemonics (R25). -/
inductive IMnemonic where
  | lw
  | sw
  | beq
  | bne
  deriving DecidableEq, Repr

/-- One pair of `RegTable`: a register name and its 5-bit index (R22). -/
structure RegRow where
  name  : Bytes
  index : RegIdx
  deriving DecidableEq, Repr

/-- One row of `RTable`: an R-type mnemonic and its function code (R24). -/
structure RRow where
  mnemonic : Bytes
  funct    : Funct
  deriving DecidableEq, Repr

/-- `ITable`: the opcode of each I-type mnemonic. R25 fixes the domain and the shapes for every value of the parameter,
so the type holds the opcodes alone (DEDUCED from R25's law, log 7). -/
structure ITable where
  lw  : Opcode
  sw  : Opcode
  beq : Opcode
  bne : Opcode
  deriving DecidableEq, Repr

/-- The parameters of rule R5 that a transaction reads: the constant tables (R22 to R25), the comment marker (R101), the
whitespace set (R102) and the optional bound on a line's length (R30). -/
structure Params where
  regTable    : List RegRow
  rTable      : List RRow
  iTable      : ITable
  commentChar : Byte
  ws          : List Byte
  maxLineLen  : Option Nat
  deriving DecidableEq, Repr

/-- The host's output policy for a batch in which some unit failed (R209). -/
inductive BatchCommit where
  | atomic
  | incremental
  deriving DecidableEq, Repr, Inhabited

/-- This instance's policy. The spec leaves it OPEN with no default (R5, R209, D20), so it has no body and nothing can be
proved of its value; every function that depends on a policy takes it as an argument (log 6). -/
opaque Config.batchCommit : BatchCommit

end Sys2Proof
end

