-- ==== Sys2Proof/Machine/Tables.lean ====
section
/-! DEFINITION. The Encoding Table: its default contents (R23 to R25), the lookups over it (R13) and the laws that any value
of the parameters meets (R22, R24 to R27, R231). -/

namespace Sys2Proof

/-- The spelling of the R mnemonic `add` (R24). -/
def kwAdd : Bytes := ascii ['a', 'd', 'd']

/-- The spelling of an I-type mnemonic (R25). -/
def IMnemonic.spelling : IMnemonic → Bytes
  | .lw  => ascii ['l', 'w']
  | .sw  => ascii ['s', 'w']
  | .beq => ascii ['b', 'e', 'q']
  | .bne => ascii ['b', 'n', 'e']

/-- The textual shape of an I-type mnemonic: memory for lw and sw, branch for beq and bne (R25). -/
def IMnemonic.shape : IMnemonic → Shape
  | .lw  => .memory
  | .sw  => .memory
  | .beq => .branch
  | .bne => .branch

/-- The four I-type mnemonics, in the order of rule R25's table. -/
def IMnemonic.all : List IMnemonic := [.lw, .sw, .beq, .bne]

/-- The function code of `add`, the one entry of `RTable` the source fixes (R24). -/
def addFunct : Funct := 0b100000#6

/-- `ITable(m).opcode` (R25). -/
def ITable.opcode (t : ITable) : IMnemonic → Opcode
  | .lw  => t.lw
  | .sw  => t.sw
  | .beq => t.beq
  | .bne => t.bne

/-- The default parameters: the tables of R23, R24 and R25, `#` as the comment marker (R101), the six ASCII whitespace bytes
(R102) and no bound on a line (R5). The spec marks them as its own defaults (D2 to D6, D23; log 4, log 5). -/
def Params.default : Params where
  regTable :=
    [⟨ascii ['$', 't', '0'], 8#5⟩, ⟨ascii ['$', 't', '1'], 9#5⟩, ⟨ascii ['$', 't', '2'], 10#5⟩, ⟨ascii ['$', 't', '3'], 11#5⟩,
     ⟨ascii ['$', 't', '4'], 12#5⟩, ⟨ascii ['$', 't', '5'], 13#5⟩, ⟨ascii ['$', 't', '6'], 14#5⟩, ⟨ascii ['$', 't', '7'], 15#5⟩,
     ⟨ascii ['$', 's', '0'], 16#5⟩, ⟨ascii ['$', 's', '1'], 17#5⟩, ⟨ascii ['$', 's', '2'], 18#5⟩, ⟨ascii ['$', 's', '3'], 19#5⟩,
     ⟨ascii ['$', 's', '4'], 20#5⟩, ⟨ascii ['$', 's', '5'], 21#5⟩, ⟨ascii ['$', 's', '6'], 22#5⟩, ⟨ascii ['$', 's', '7'], 23#5⟩]
  rTable := [⟨kwAdd, addFunct⟩]
  iTable := { lw := 35#6, sw := 43#6, beq := 4#6, bne := 5#6 }
  commentChar := 0x23#8
  ws := [0x09#8, 0x0A#8, 0x0B#8, 0x0C#8, 0x0D#8, 0x20#8]
  maxLineLen := none

/-! ### Lookups (R13): each answers none on an unknown key -/

/-- `RegIndex(name)`, by exact byte equality (R107). -/
def Params.regIndex (P : Params) (name : Bytes) : Option RegIdx :=
  (P.regTable.find? fun r => r.name == name).map (·.index)

/-- `RegName(idx)`, the inverse of `RegIndex`. -/
def Params.regName (P : Params) (idx : RegIdx) : Option Bytes :=
  (P.regTable.find? fun r => r.index == idx).map (·.name)

/-- `RTable(m)`. -/
def Params.rFunct (P : Params) (m : Bytes) : Option Funct :=
  (P.rTable.find? fun r => r.mnemonic == m).map (·.funct)

/-- `RByFunct(f)`, the inverse of `RTable`. -/
def Params.rByFunct (P : Params) (f : Funct) : Option Bytes :=
  (P.rTable.find? fun r => r.funct == f).map (·.mnemonic)

/-- The I-type mnemonic spelled `m`, if any (R25, R105). -/
def iNamed (m : Bytes) : Option IMnemonic :=
  IMnemonic.all.find? fun k => k.spelling == m

/-- `IByOp(op)`, the inverse of `ITable` on opcode. -/
def Params.iByOp (P : Params) (op : Opcode) : Option IMnemonic :=
  IMnemonic.all.find? fun k => P.iTable.opcode k == op

/-- What `Lookup` answers for a known mnemonic: an `RTable` entry with its function code, or an `ITable` entry (R13). -/
inductive Entry where
  | r (funct : Funct)
  | i (mnemonic : IMnemonic)
  deriving DecidableEq, Repr

/-- `Lookup(m)`, over `RTable` and `ITable` together (R13, R105). -/
def Params.lookup (P : Params) (m : Bytes) : Option Entry :=
  match P.rFunct m with
  | some f => some (.r f)
  | none => (iNamed m).map .i

/-- Whether a byte is whitespace (R102). -/
def Params.isWs (P : Params) (c : Byte) : Bool := P.ws.contains c

/-- A line is not longer than `MaxLineLen`, when that is set (R30). -/
def lineFits (P : Params) (line : Bytes) : Bool :=
  match P.maxLineLen with
  | none => true
  | some n => line.length ≤ n

/-! ### Laws (R22, R24 to R27) -/

/-- No element occurs twice. -/
def allDistinct {α : Type} [BEq α] : List α → Bool
  | [] => true
  | a :: l => !l.contains a && allDistinct l

/-- R27: a table key is not empty and holds no byte of `WS`, no `CommentChar`, no `,`, `(` or `)`. -/
def Params.spells (P : Params) (key : Bytes) : Bool :=
  !key.isEmpty &&
    key.all fun c => !P.isWs c && c != P.commentChar && c != 0x2C#8 && c != 0x28#8 && c != 0x29#8

/-- R22: 16 pairs, a bijection, with the entries and the absence that the source's examples fix; R27 for its names. -/
def Params.lawfulReg (P : Params) : Bool :=
  P.regTable.length == 16 &&
  allDistinct (P.regTable.map (·.name)) &&
  allDistinct (P.regTable.map (·.index)) &&
  P.regIndex (ascii ['$', 't', '1']) == some 9#5 &&
  P.regIndex (ascii ['$', 't', '2']) == some 10#5 &&
  P.regIndex (ascii ['$', 't', '3']) == some 11#5 &&
  (P.regIndex (ascii ['$', 's', '0'])).isSome &&
  (P.regIndex (ascii ['$', 's', '1'])).isSome &&
  (P.regIndex (ascii ['$', 's', '2'])).isSome &&
  (P.regIndex (ascii ['$', 'b', 'a', 'd'])).isNone &&
  P.regTable.all fun r => P.spells r.name

/-- R24: an injective map with `RTable(add) = 32`; R26: no mnemonic of `ITable` in it; R27 for its mnemonics. -/
def Params.lawfulR (P : Params) : Bool :=
  allDistinct (P.rTable.map (·.mnemonic)) &&
  allDistinct (P.rTable.map (·.funct)) &&
  P.rFunct kwAdd == some addFunct &&
  (IMnemonic.all.all fun k => (P.rFunct k.spelling).isNone) &&
  P.rTable.all fun r => P.spells r.mnemonic

/-- R25: the four opcodes are distinct and nonzero; R27 for the four mnemonics. -/
def Params.lawfulI (P : Params) : Bool :=
  allDistinct (IMnemonic.all.map P.iTable.opcode) &&
  (IMnemonic.all.all fun k => P.iTable.opcode k != 0#6) &&
  IMnemonic.all.all fun k => P.spells k.spelling

/-- The premise on the parameters that R231 asks for: tables that break a law are refused. -/
def Params.lawful (P : Params) : Bool := P.lawfulReg && P.lawfulR && P.lawfulI

/-- What the general round-trip laws of R79 need of `CommentChar` and `WS` beyond R27, so that the Encoder reads back the
spaces, punctuation, signs and digits of canonical text: SPACE is whitespace and no comment marker, and none of `,` `(` `)`
`-` and the ten digits is whitespace or the comment marker. DEDUCED, log 8; the defaults meet it. -/
def Params.plainText (P : Params) : Bool :=
  P.isWs 0x20#8 && P.commentChar != 0x20#8 &&
  (ascii [',', '(', ')', '-', '0', '1', '2', '3', '4', '5', '6', '7', '8', '9']).all fun c =>
    !P.isWs c && c != P.commentChar

end Sys2Proof
end

