-- ==== Sys2Proof/Machine/State.lean ====
section
/-! DEFINITION. The state of the block as plain data (R20, R32): the constant parameters and the ports, and the reasons a step
can stop. -/

namespace Sys2Proof.Machine

/-- A port: the requests presented and not yet answered, oldest first, and the
results not yet collected, oldest first (R30, R31, R48; log 3). -/
structure Port (α β : Type) where
  requests : List α
  results  : List β
  deriving DecidableEq, Repr

/-- An idle port: no transaction in progress, no result pending (R32, R230). -/
def Port.idle {α β : Type} : Port α β := ⟨[], []⟩

/-- The state of the block. `params` holds the Encoding Table and the parameters of R5, which no transaction writes (R29);
`enc`, `dec` and `framer` are the Encoder port (R30), the Decoder port (R31) and the framing adapters (R44, R45). -/
structure State where
  params : Params
  enc    : Port Bytes EncResult
  dec    : Port Word DecResult
  framer : Port Stream FrameResult
  deriving DecidableEq, Repr

/-- No behaviour of the block is a fault (93_implementation_defined, Part 1; R202): the type is empty. -/
inductive Fault where
  deriving DecidableEq, Repr

/-- Why a step has no transition. -/
inductive Refusal where
  /-- raised by an arm of `exec` for an instruction without a meaning: none here. Safe. -/
  | notModelled (mnemonic : String)
  /-- raised by `step` when nothing waits but lines longer than `MaxLineLen`: "no result is defined for it, and a model has no transition
  for it" (R30, U6). Safe. -/
  | lineTooLong
  /-- raised by `step` when the tables break a law of R22 to R27: "a model has no transitions for them" (R231, U18). Safe. -/
  | unlawfulTables
  deriving DecidableEq, Repr

/-- The machine right after reset (R32, R230): the default tables and parameters (R23 to R25, R101, R102; log 4), all ports
idle. -/
def State.reset : State where
  params := Params.default
  enc := Port.idle
  dec := Port.idle
  framer := Port.idle

end Sys2Proof.Machine
end

