-- ==== Sys2Proof/Machine/Ops.lean ====
section
/-! DEFINITION. The named operations over the ports: what the outside does (present a request, take the results, reset), whose
turn it is, the delivery of one result, and the shared operation every instruction completes through. Raising an error is the
delivery of an error result and nothing else (R202): there is no trap entry and no return from one. -/

namespace Sys2Proof.Machine

/-! ### What the outside does at the ports (R30, R31, R44, R45, R208, R230) -/

/-- A line is presented to the Encoder, after those already presented. -/
def State.presentLine (line : Bytes) (s : State) : State :=
  { s with enc := { s.enc with requests := s.enc.requests ++ [line] } }

/-- A word is presented to the Decoder, after those already presented. -/
def State.presentWord (w : Word) (s : State) : State :=
  { s with dec := { s.dec with requests := s.dec.requests ++ [w] } }

/-- A stream is presented to the framing adapters, after those already presented. -/
def State.presentStream (x : Stream) (s : State) : State :=
  { s with framer := { s.framer with requests := s.framer.requests ++ [x] } }

/-- The host has collected every pending result. A later report does not cover them (DESIGN CHOICE, log 20). -/
def State.takeResults (s : State) : State :=
  { s with
    enc := { s.enc with results := [] }
    dec := { s.dec with results := [] }
    framer := { s.framer with results := [] } }

/-- Reset of a running block: every port idle, no table and no parameter changed (R230). Requests still waiting
are dropped (DEDUCED, log 16). -/
def State.resetPorts (s : State) : State :=
  { s with enc := Port.idle, dec := Port.idle, framer := Port.idle }

/-! ### Whose turn it is -/

/-- The transaction the next step runs. -/
inductive Turn where
  | decode (w : Word)
  | encode (line : Bytes)
  | frame (x : Stream)
  /-- nothing waits but lines longer than `MaxLineLen`, this one first: they have no transition (R30) -/
  | overlong (line : Bytes)
  | idle
  deriving DecidableEq, Repr

/-- The oldest waiting line that is not longer than `MaxLineLen`. A longer line has no result (R30), and no request needs to wait
for an earlier one (R232), so it is passed over (DEDUCED, log 18). -/
def State.nextLine (s : State) : Option Bytes := s.enc.requests.find? (lineFits s.params)

/-- The transaction in progress: the Decoder's first, then the Encoder's, then the framing adapters'. The order is the model's
(DESIGN CHOICE, log 1); no result depends on it (R48). -/
def State.turn (s : State) : Turn :=
  match s.dec.requests, s.nextLine, s.framer.requests, s.enc.requests with
  | w :: _, _, _, _ => .decode w
  | [], some line, _, _ => .encode line
  | [], none, x :: _, _ => .frame x
  | [], none, [], line :: _ => .overlong line
  | [], none, [], [] => .idle

/-! ### Delivery of one result: it ends the transaction in progress (R11, R47) -/

/-- The oldest request of a port is answered. -/
def Port.answer {α β : Type} (r : β) (p : Port α β) : Port α β := ⟨p.requests.tail, p.results ++ [r]⟩

/-- The Encoder answers its transaction in progress, the oldest waiting line within `MaxLineLen`. -/
def State.answerEnc (r : EncResult) (s : State) : State :=
  { s with enc := ⟨s.enc.requests.eraseP (lineFits s.params), s.enc.results ++ [r]⟩ }

/-- The Decoder answers its transaction in progress. -/
def State.answerDec (r : DecResult) (s : State) : State := { s with dec := s.dec.answer r }

/-- The framing adapters answer; the words of a well-framed stream go to the Decoder in order (R44, R48; log 10). -/
def State.answerFrame (r : FrameResult) (s : State) : State :=
  match r with
  | .words ws =>
    { s with framer := s.framer.answer r, dec := { s.dec with requests := s.dec.requests ++ ws } }
  | .error _ => { s with framer := s.framer.answer r }

/-! ### The shared completion of every instruction -/

/-- An instruction completes the transaction in progress: a Decoder transaction with its text or its register error, an Encoder
transaction with its word. With neither in progress nothing is delivered and nothing changes (log 14). Names and
ranges of a line were checked before the instruction existed (log 17). -/
def translate (word : Word) (text : DecResult) (s : State) : Host.Outcome State Fault Refusal :=
  match s.turn with
  | .decode _ => .next (s.answerDec text)
  | .encode _ => .next (s.answerEnc (.word word))
  | .frame _ => .next s
  | .overlong _ => .next s
  | .idle => .next s

end Sys2Proof.Machine
end

