-- ==== Sys2Proof/Syntax.lean ====
section
/-! DEFINITION. The five instructions the block translates, one constructor per row of spec/opcode_table.json, operands in
textual order (R73). -/

namespace Sys2Proof

/-- An instruction as the block carries it between text and word: register indices and, in the I format, the offset as a
mathematical integer (R9, R67). The shift amount is no operand: it is written 0 and never read (R64). -/
inductive Instr where
  /-- `add dest, source, target` (R170) -/
  | add (dest source target : RegIdx)
  /-- `lw target, offset(source)` (R180) -/
  | lw (target : RegIdx) (offset : Int) (source : RegIdx)
  /-- `sw target, offset(source)` (R181) -/
  | sw (target : RegIdx) (offset : Int) (source : RegIdx)
  /-- `beq source, target, offset` (R190) -/
  | beq (source target : RegIdx) (offset : Int)
  /-- `bne source, target, offset` (R191) -/
  | bne (source target : RegIdx) (offset : Int)
  deriving DecidableEq, Repr

end Sys2Proof
end

