-- ==== Sys2Proof/Decode.lean ====
section
/-! DEFINITION. Words: their fields (R7, R61, R62, R141), their byte and bit-string forms and framing (R41 to R45), the total
decoder from a word to an instruction, and the encoder from an instruction to its word (R60 to R71). -/

namespace Sys2Proof

/-! ### Fields (R141; the source's `[a:b)` is `w[31-a : 32-b]`, R7, C1) -/

/-- `w[31:26]` -/
def opcodeOf (w : Word) : Opcode := w.extractLsb' 26 6
/-- `w[25:21]`, the source register -/
def sourceOf (w : Word) : RegIdx := w.extractLsb' 21 5
/-- `w[20:16]`, the target register -/
def targetOf (w : Word) : RegIdx := w.extractLsb' 16 5
/-- `w[15:11]`, the destination register of the R format -/
def destOf (w : Word) : RegIdx := w.extractLsb' 11 5
/-- `w[10:6]`, the shift amount of the R format: the decoder never reads it (R64) -/
def shamtOf (w : Word) : BitVec 5 := w.extractLsb' 6 5
/-- `w[5:0]`, the function code of the R format -/
def functOf (w : Word) : Funct := w.extractLsb' 0 6
/-- `w[15:0]`, the offset field of the I format -/
def offsetOf (w : Word) : BitVec 16 := w.extractLsb' 0 16

/-- `lo16(x) = x mod 2^16` (R9, R66). -/
def lo16 (x : Int) : BitVec 16 := BitVec.ofInt 16 x

/-- `sext_16(f)`: if bit 15 is set, subtract 0x10000 (R9, R67). -/
def sext16 (f : BitVec 16) : Int := if f.msb then (f.toNat : Int) - 0x10000 else f.toNat

/-- The R-format word `000000 sssss ttttt ddddd 00000 ffffff` (R61, R111). -/
def composeR (source target dest : RegIdx) (f : Funct) : Word :=
  0#6 ++ source ++ target ++ dest ++ 0#5 ++ f

/-- The I-format word `oooooo sssss ttttt iiiiiiiiiiiiiiii` (R62, R112, R113). -/
def composeI (op : Opcode) (source target : RegIdx) (x : Int) : Word :=
  op ++ source ++ target ++ lo16 x

/-! ### Bytes and bit strings of a word, and framing -/

/-- `Bytes(w)`: four bytes, most significant first (R41). -/
def wordBytes (w : Word) : Bytes :=
  [w.extractLsb' 24 8, w.extractLsb' 16 8, w.extractLsb' 8 8, w.extractLsb' 0 8]

/-- A stream of words as bytes, nothing between and nothing before (R41). -/
def streamBytes (ws : List Word) : Bytes := ws.flatMap wordBytes

/-- `Bits(w)`: 32 characters `0` or `1`, position `i` the digit of `w[31-i]` (R42). -/
def wordBits (w : Word) : Bytes :=
  (List.range 32).map fun i => if w.getLsbD (31 - i) then 0x31#8 else 0x30#8

/-- The line form of a bit-string stream: one LF after each word, the last included (R43, D18). -/
def streamLines (ws : List Word) : Bytes := ws.flatMap fun w => wordBits w ++ [0x0A#8]

/-- The raw form of a bit-string stream: no delimiter (R43). -/
def streamBits (ws : List Word) : Bytes := ws.flatMap wordBits

/-- The big-endian words of the complete 4-byte groups of a byte string (R41, R44). -/
def wordsOfBytes : Bytes → List Word
  | a :: b :: c :: d :: rest => (a ++ b ++ c ++ d) :: wordsOfBytes rest
  | _ => []

/-- `FrameBytes(B)` (R44): a zero length or a length that is no multiple of 4 rejects the stream as a whole. -/
def frameBytes (b : Bytes) : FrameResult :=
  if b.length = 0 then .error emptyInput
  else if b.length % 4 ≠ 0 then .error (invalidWordLength b.length)
  else .words (wordsOfBytes b)

/-- The value whose digits are the given characters, leftmost most significant (R42, R45). -/
def bitsValue (t : Bytes) : Nat := t.foldl (fun n c => 2 * n + (if c = 0x31#8 then 1 else 0)) 0

/-- The first `n` words of a raw bit string, 32 characters each (R45). -/
def wordsOfBits : Nat → Bytes → List Word
  | 0, _ => []
  | n + 1, t => BitVec.ofNat 32 (bitsValue (t.take 32)) :: wordsOfBits n (t.drop 32)

/-- Framing of a raw bit string (R45): zero length, then the length, then the characters are checked. -/
def frameBits (t : Bytes) : FrameResult :=
  if t.length = 0 then .error emptyInput
  else if t.length % 32 ≠ 0 then .error (invalidWordLength t.length)
  else if !(t.all fun c => c == 0x30#8 || c == 0x31#8) then .error (invalidWordLength t.length)
  else .words (wordsOfBits (t.length / 32) t)

/-- Framing of either stream. -/
def frame : Stream → FrameResult
  | .byteStream b => frameBytes b
  | .bitString t => frameBits t

/-! ### Word to instruction -/

/-- What a word or a line selects: an instruction of the opcode table, or an instruction of a further `RTable` row `m -> f`,
which R171 translates as `add` with its own name and code (log 9). -/
inductive Item where
  | instr (i : Instr)
  | rRow (m : Bytes) (f : Funct) (dest source target : RegIdx)
  deriving DecidableEq, Repr

/-- The item of an R-format row `m -> f` with its three registers. -/
def rItem (m : Bytes) (f : Funct) (dest source target : RegIdx) : Item :=
  if m = kwAdd then .instr (.add dest source target) else .rRow m f dest source target

/-- The instruction of an I-type mnemonic with its operands. -/
def iInstr (k : IMnemonic) (source target : RegIdx) (x : Int) : Instr :=
  match k with
  | .lw => .lw target x source
  | .sw => .sw target x source
  | .beq => .beq source target x
  | .bne => .bne source target x

/-- The word decoder, total on all words: the format by the opcode alone (R63), the row by function code or opcode (R69, R70),
the fields of R141. It rejects by name a word of no row, in the order of R142 and R143. Whether the register fields have
names is checked after it, by the instruction's own meaning, in the same order as R142 and R143 (log 2). -/
def decodeWord (P : Params) (w : Word) : Except Err Item :=
  if opcodeOf w = 0#6 then
    match P.rByFunct (functOf w) with
    | none => .error (unknownFunction (functOf w))
    | some m => .ok (rItem m (functOf w) (destOf w) (sourceOf w) (targetOf w))
  else
    match P.iByOp (opcodeOf w) with
    | none => .error (unknownOpcode (opcodeOf w))
    | some k => .ok (.instr (iInstr k (sourceOf w) (targetOf w) (sext16 (offsetOf w))))

/-! ### Instruction to word -/

/-- The word of an instruction (R61, R62, R111 to R113): `add` has function 32, an I-type instruction its `ITable` opcode. -/
def encode (P : Params) : Instr → Word
  | .add dest source target => composeR source target dest addFunct
  | .lw target x source => composeI P.iTable.lw source target x
  | .sw target x source => composeI P.iTable.sw source target x
  | .beq source target x => composeI P.iTable.beq source target x
  | .bne source target x => composeI P.iTable.bne source target x

/-- The word of an item: an instruction's word, or the R-format word of a further row (R171). -/
def encodeItem (P : Params) : Item → Word
  | .instr i => encode P i
  | .rRow _ f dest source target => composeR source target dest f

/-! ### The opcode table's numbering -/

/-- The instruction the decoder reads, under the default tables, from the word whose bits are the low `nbits` bits of `w`:
the word is laid out as its four bytes, most significant first (R41), framed (R44) and decoded (log 13). -/
def decodeTableWord (nbits w : Nat) : Option Instr :=
  match frameBytes (wordBytes (BitVec.ofNat 32 (w % 2 ^ nbits))) with
  | .words [x] =>
    match decodeWord Params.default x with
    | .ok (.instr i) => some i
    | _ => none
  | _ => none

end Sys2Proof
end

