-- ==== Sys2Proof/WellFormed.lean ====
section
/-! DEFINITION. Which instructions the block can carry both ways: every register index has a name and the offset lies in the
signed 16-bit range. -/

namespace Sys2Proof

/-- The offset range of rule R68. -/
abbrev OffsetInRange (x : Int) : Prop := -32768 ≤ x ∧ x ≤ 32767

/-- A register index has a name in `RegTable` (R22, R65). -/
abbrev Params.Names (P : Params) (r : RegIdx) : Prop := (P.regName r).isSome

/-- The register operands of an instruction. -/
def Instr.regs : Instr → List RegIdx
  | .add d s t => [d, s, t]
  | .lw t _ s => [t, s]
  | .sw t _ s => [t, s]
  | .beq s t _ => [s, t]
  | .bne s t _ => [s, t]

/-- The offset operand of an instruction, when its format has one (R62). -/
def Instr.offset? : Instr → Option Int
  | .add _ _ _ => none
  | .lw _ x _ => some x
  | .sw _ x _ => some x
  | .beq _ _ x => some x
  | .bne _ _ x => some x

/-- The offset, if any, is one the 16-bit field holds (R68). -/
abbrev Instr.OffsetOk (i : Instr) : Prop := ∀ x ∈ i.offset?, OffsetInRange x

/-- A well-formed instruction under the tables `P`: its registers are named (R65) and its offset is in range (R68). -/
abbrev Instr.WellFormed (P : Params) (i : Instr) : Prop := (∀ r ∈ i.regs, P.Names r) ∧ i.OffsetOk

end Sys2Proof
end

