-- ==== Sys2Proof/Machine/Operands.lean ====
section
/-! DEFINITION. Every operand form of the text, read and printed: line preparation (R101 to R104), separator strip (R106),
register names (R107, R145), offsets (R108, R109, R144), the memory operand (R110), and the three canonical renderings
(R142, R143, R146). -/

namespace Sys2Proof

/-! ### Line preparation -/

/-- `StripComment(line)`: everything from the first comment marker on is discarded (R101). -/
def stripComment (P : Params) (line : Bytes) : Bytes := line.takeWhile fun c => c != P.commentChar

/-- `s` without the trailing bytes that satisfy `p`. -/
def dropTrailing (p : Byte → Bool) (s : Bytes) : Bytes := (s.reverse.dropWhile p).reverse

/-- `Trim(s)`: no leading and no trailing whitespace byte (R103). -/
def trim (P : Params) (s : Bytes) : Bytes := dropTrailing P.isWs (s.dropWhile P.isWs)

/-- The prepared line of R100: comment-stripped and trimmed. -/
def prepare (P : Params) (line : Bytes) : Bytes := trim P (stripComment P line)

/-- A token once it is complete: no token is empty (R104). -/
def token (cur : Bytes) : List Bytes := if cur = [] then [] else [cur]

/-- `Tokens`, with the bytes `cur` of the token being read (R104). -/
def tokensFrom (P : Params) (cur : Bytes) : Bytes → List Bytes
  | [] => token cur
  | c :: rest => if P.isWs c then token cur ++ tokensFrom P [] rest else tokensFrom P (cur ++ [c]) rest

/-- `Tokens(s)`: the maximal runs of non-whitespace bytes, in order; a comma is part of the token it touches (R104). -/
def tokens (P : Params) (s : Bytes) : List Bytes := tokensFrom P [] s

/-! ### Operand primitives -/

/-- `StripSep(t)`: every trailing `,` removed and nothing else (R106). -/
def stripSep (t : Bytes) : Bytes := dropTrailing (fun c => c == 0x2C#8) t

/-- `Resolve(t)`: the index of a register name, by exact byte equality (R107). -/
def resolve (P : Params) (t : Bytes) : Except Err RegIdx :=
  match P.regIndex t with
  | some r => .ok r
  | none => .error (unknownRegText t)

/-- An ASCII digit `0` to `9` (R108). -/
def isDigit (c : Byte) : Bool := 0x30 ≤ c.toNat && c.toNat ≤ 0x39

/-- The value of `[0-9]+`, exact and unbounded; none for any other text (R108). -/
def digitsValue (t : Bytes) : Option Nat :=
  if !t.isEmpty && t.all isDigit then some (t.foldl (fun n c => 10 * n + (c.toNat - 0x30)) 0) else none

/-- The value of `[+-]?[0-9]+`, exact and unbounded; none for any other text (R108). -/
def offsetValue (t : Bytes) : Option Int :=
  match t with
  | [] => none
  | c :: rest =>
    if c = 0x2B#8 then (digitsValue rest).map fun (n : Nat) => (n : Int)
    else if c = 0x2D#8 then (digitsValue rest).map fun (n : Nat) => -(n : Int)
    else (digitsValue t).map fun (n : Nat) => (n : Int)

/-- `ParseOffset(t)` (R108, R109): a text outside the grammar and a value outside the range are both `InvalidOffset(t)`. -/
def parseOffset (t : Bytes) : Except Err Int :=
  match offsetValue t with
  | some x => if OffsetInRange x then .ok x else .error (invalidOffset t)
  | none => .error (invalidOffset t)

/-- `SplitMem(t, s)` (R110): exactly one `(` and one `)`, the `)` last and the `(` before it; the texts before and between. -/
def splitMem (line t : Bytes) : Except Err (Bytes × Bytes) :=
  if t.count 0x28#8 ≠ 1 ∨ t.count 0x29#8 ≠ 1 then .error (malformedOperands line)
  else if t.idxOf 0x29#8 ≠ t.length - 1 ∨ t.idxOf 0x29#8 < t.idxOf 0x28#8 then .error (malformedOperands line)
  else .ok (t.take (t.idxOf 0x28#8), (t.take (t.idxOf 0x29#8)).drop (t.idxOf 0x28#8 + 1))

/-! ### Rendering -/

/-- The ASCII digit of `n mod 10`. -/
def digit (n : Nat) : Byte := BitVec.ofNat 8 (0x30 + n % 10)

/-- The shortest decimal spelling of `n`, for any `n ≤ fuel` (R144). -/
def natText : Nat → Nat → Bytes
  | 0, n => [digit n]
  | fuel + 1, n => if n < 10 then [digit n] else natText fuel (n / 10) ++ [digit n]

/-- `Dec(x)`: the digits of `|x|` with no leading zero, after `-` exactly when `x < 0` (R144). -/
def decText (x : Int) : Bytes :=
  if x < 0 then 0x2D#8 :: natText x.natAbs x.natAbs else natText x.natAbs x.natAbs

/-- The name of a register field, or `UnknownRegister` of its index (R142, R143, R145, R147). -/
def nameOf (P : Params) (r : RegIdx) : Except Err Bytes :=
  match P.regName r with
  | some n => .ok n
  | none => .error (unknownRegField r)

/-- One space (R146). -/
def space : Bytes := [0x20#8]

/-- A comma and one space (R146). -/
def comma : Bytes := [0x2C#8, 0x20#8]

/-- `m dest, source, target` (R142, R146). -/
def textR (m nd ns nt : Bytes) : Bytes := m ++ space ++ nd ++ comma ++ ns ++ comma ++ nt

/-- `m target, offset(source)` (R143, R146). -/
def textMem (m nt : Bytes) (x : Int) (ns : Bytes) : Bytes :=
  m ++ space ++ nt ++ comma ++ decText x ++ [0x28#8] ++ ns ++ [0x29#8]

/-- `m source, target, offset` (R143, R146). -/
def textBranch (m ns nt : Bytes) (x : Int) : Bytes := m ++ space ++ ns ++ comma ++ nt ++ comma ++ decText x

/-- The Decoder's result for an R-format row: the first unnamed field in the order source, target, destination is reported
(R142, D12). -/
def renderR (P : Params) (m : Bytes) (dest source target : RegIdx) : DecResult :=
  match nameOf P source, nameOf P target, nameOf P dest with
  | .error e, _, _ => .error e
  | .ok _, .error e, _ => .error e
  | .ok _, .ok _, .error e => .error e
  | .ok ns, .ok nt, .ok nd => .text (textR m nd ns nt)

/-- The two register names of an I-format word, source before target, laid out by `text` (R143, D12). -/
def renderI (P : Params) (source target : RegIdx) (text : Bytes → Bytes → Bytes) : DecResult :=
  match nameOf P source, nameOf P target with
  | .error e, _ => .error e
  | .ok _, .error e => .error e
  | .ok ns, .ok nt => .text (text ns nt)

/-- The Decoder's result for a memory-shape row (R143). -/
def renderMem (P : Params) (m : Bytes) (target : RegIdx) (x : Int) (source : RegIdx) : DecResult :=
  renderI P source target fun ns nt => textMem m nt x ns

/-- The Decoder's result for a branch-shape row (R143). -/
def renderBranch (P : Params) (m : Bytes) (source target : RegIdx) (x : Int) : DecResult :=
  renderI P source target fun ns nt => textBranch m ns nt x

end Sys2Proof
end

