-- ==== Sys2Proof/Machine/Translate.lean ====
section
/-! DEFINITION. The two directions as functions of the request and the parameters alone (R20): `parseLine` and `encodeLine`, the
Encoder (R100 to R115); `renderItem` and `decodeText`, the Decoder (R140 to R147). The order of the checks is normative (R204). -/

namespace Sys2Proof

/-! ### Encoder -/

/-- `EncodeR` up to the word (R111): four tokens, then destination, source, target are resolved in that order. -/
def parseR (P : Params) (s m : Bytes) (f : Funct) (operands : List Bytes) : Except Err Item :=
  match operands with
  | [d, a, b] => do
    let dest ← resolve P (stripSep d)
    let source ← resolve P (stripSep a)
    let target ← resolve P (stripSep b)
    return rItem m f dest source target
  | _ => .error (malformedOperands s)

/-- `EncodeMem` up to the word (R112): three tokens, then delimiters, offset, source (base), target. -/
def parseMem (P : Params) (s : Bytes) (k : IMnemonic) (operands : List Bytes) : Except Err Item :=
  match operands with
  | [t, o] => do
    let (offsetText, baseText) ← splitMem s (stripSep o)
    let x ← parseOffset offsetText
    let source ← resolve P baseText
    let target ← resolve P (stripSep t)
    return .instr (iInstr k source target x)
  | _ => .error (malformedOperands s)

/-- `EncodeBranch` up to the word (R113): four tokens, then offset, source, target. -/
def parseBranch (P : Params) (s : Bytes) (k : IMnemonic) (operands : List Bytes) : Except Err Item :=
  match operands with
  | [a, b, o] => do
    let x ← parseOffset (stripSep o)
    let source ← resolve P (stripSep a)
    let target ← resolve P (stripSep b)
    return .instr (iInstr k source target x)
  | _ => .error (malformedOperands s)

/-- The operands of a known mnemonic, by its format and shape (R63, R100). -/
def parseEntry (P : Params) (s m : Bytes) (operands : List Bytes) : Entry → Except Err Item
  | .r f => parseR P s m f operands
  | .i k =>
    match k.shape with
    | .memory => parseMem P s k operands
    | .branch => parseBranch P s k operands

/-- A line read as an item, as nothing (blank or comment only) or as an error (R100): the mnemonic is looked up before any
operand is counted or checked. -/
def parseLine (P : Params) (line : Bytes) : Except Err (Option Item) :=
  match tokens P (prepare P line) with
  | [] => .ok none
  | m :: operands =>
    match P.lookup m with
    | none => .error (unknownInstruction m)
    | some e => (parseEntry P (prepare P line) m operands e).map some

/-- `Encode(line)` (R100). It does not read `MaxLineLen`: R30's refusal of a longer line stands at the port, in `State.turn`, so for
such a line this is the value the line would have without the bound (DESIGN CHOICE, log 19). -/
def encodeLine (P : Params) (line : Bytes) : EncResult :=
  match parseLine P line with
  | .error e => .error e
  | .ok none => .empty
  | .ok (some item) => .word (encodeItem P item)

/-! ### Decoder -/

/-- The Decoder's result for an instruction (R142, R143). -/
def renderInstr (P : Params) : Instr → DecResult
  | .add dest source target => renderR P kwAdd dest source target
  | .lw target x source => renderMem P IMnemonic.lw.spelling target x source
  | .sw target x source => renderMem P IMnemonic.sw.spelling target x source
  | .beq source target x => renderBranch P IMnemonic.beq.spelling source target x
  | .bne source target x => renderBranch P IMnemonic.bne.spelling source target x

/-- The Decoder's result for an item (R142, R143, R171). -/
def renderItem (P : Params) : Item → DecResult
  | .instr i => renderInstr P i
  | .rRow m _ dest source target => renderR P m dest source target

/-- `Decode(w)` (R140). -/
def decodeText (P : Params) (w : Word) : DecResult :=
  match decodeWord P w with
  | .error e => .error e
  | .ok item => renderItem P item

end Sys2Proof
end

