-- ==== Sys2Proof/Machine/IBranch.lean ====
section
/-! DEFINITION. The I format, branch shape: `beq` (R190) and `bne` (R191). The offset is carried as written: no target, no label,
no scaling; no flag is written. -/

namespace Sys2Proof.Machine

/-- A branch-shape row with mnemonic `m` and opcode `op` (R113, R143). -/
def execBranch (m : Bytes) (op : Opcode) (source target : RegIdx) (x : Int) (s : State) :
    Host.Outcome State Fault Refusal :=
  translate (composeI op source target x) (renderBranch s.params m source target x) s

/-- `beq source, target, offset` (R190). -/
def execBeq (source target : RegIdx) (x : Int) (s : State) : Host.Outcome State Fault Refusal :=
  execBranch IMnemonic.beq.spelling s.params.iTable.beq source target x s

/-- `bne source, target, offset` (R191). -/
def execBne (source target : RegIdx) (x : Int) (s : State) : Host.Outcome State Fault Refusal :=
  execBranch IMnemonic.bne.spelling s.params.iTable.bne source target x s

end Sys2Proof.Machine
end

