-- ==== Sys2Proof/Machine/IMemory.lean ====
section
/-! DEFINITION. The I format, memory shape: `lw` (R180) and `sw` (R181). No address is formed and no flag is written. -/

namespace Sys2Proof.Machine

/-- A memory-shape row with mnemonic `m` and opcode `op` (R112, R143). -/
def execMem (m : Bytes) (op : Opcode) (target : RegIdx) (x : Int) (source : RegIdx) (s : State) :
    Host.Outcome State Fault Refusal :=
  translate (composeI op source target x) (renderMem s.params m target x source) s

/-- `lw target, offset(source)` (R180). -/
def execLw (target : RegIdx) (x : Int) (source : RegIdx) (s : State) : Host.Outcome State Fault Refusal :=
  execMem IMnemonic.lw.spelling s.params.iTable.lw target x source s

/-- `sw target, offset(source)` (R181). -/
def execSw (target : RegIdx) (x : Int) (source : RegIdx) (s : State) : Host.Outcome State Fault Refusal :=
  execMem IMnemonic.sw.spelling s.params.iTable.sw target x source s

end Sys2Proof.Machine
end

