-- ==== Sys2Proof/Machine/RFormat.lean ====
section
/-! DEFINITION. The R format: `add` (R170) and further rows of `RTable` (R171). No flag and no state is written. -/

namespace Sys2Proof.Machine

/-- An R-format row `m -> f` (R171): the word `000000 sssss ttttt ddddd 00000 ffffff`, the text `m dest, source, target`. -/
def execRRow (m : Bytes) (f : Funct) (dest source target : RegIdx) (s : State) : Host.Outcome State Fault Refusal :=
  translate (composeR source target dest f) (renderR s.params m dest source target) s

/-- `add dest, source, target` (R170): the row `add -> 32`. -/
def execAdd (dest source target : RegIdx) (s : State) : Host.Outcome State Fault Refusal :=
  execRRow kwAdd addFunct dest source target s

end Sys2Proof.Machine
end

