-- ==== Sys2Proof/Machine/Dispatch.lean ====
section
/-! DEFINITION. One arm per instruction of spec/opcode_table.json. -/

namespace Sys2Proof.Machine

-- `exec i s`: instruction `i` completes the transaction in progress in `s`
def exec (i : Instr) (s : State) : Host.Outcome State Fault Refusal :=
  match i with
  | .add dest source target => Sys2Proof.Machine.execAdd dest source target s
  | .lw target x source => Sys2Proof.Machine.execLw target x source s
  | .sw target x source => Sys2Proof.Machine.execSw target x source s
  | .beq source target x => Sys2Proof.Machine.execBeq source target x s
  | .bne source target x => Sys2Proof.Machine.execBne source target x s

end Sys2Proof.Machine
end

