-- ==== Sys2Proof/Machine/Units.lean ====
section
/-! DEFINITION. The three units: each runs the transaction in progress at its port to its result (R47), through the
decoder or the line reader and then `exec`. -/

namespace Sys2Proof.Machine

/-- An item completes the transaction in progress: an instruction by `exec`, a further R row by the R-format row (R171). -/
def execItem (item : Item) (s : State) : Host.Outcome State Fault Refusal :=
  match item with
  | .instr i => exec i s
  | .rRow m f dest source target => execRRow m f dest source target s

/-- A Decoder transaction (R140): a word of no row is an error result, any other word runs its instruction. -/
def runDecode (w : Word) (s : State) : Host.Outcome State Fault Refusal :=
  match decodeWord s.params w with
  | .error e => .next (s.answerDec (.error e))
  | .ok item => execItem item s

/-- An Encoder transaction (R100). -/
def runEncode (line : Bytes) (s : State) : Host.Outcome State Fault Refusal :=
  match parseLine s.params line with
  | .error e => .next (s.answerEnc (.error e))
  | .ok none => .next (s.answerEnc .empty)
  | .ok (some item) => execItem item s

/-- A framing transaction (R44, R45). -/
def runFrame (x : Stream) (s : State) : Host.Outcome State Fault Refusal :=
  .next (s.answerFrame (frame x))

/-- The block's one step: the transaction whose turn it is. Unlawful tables have no transition (R231), and a line longer than
`MaxLineLen` has none (R30; log 18). With every port idle nothing happens (R213). -/
def runTurn (s : State) : Host.Outcome State Fault Refusal :=
  if s.params.lawful then
    match s.turn with
    | .decode w => runDecode w s
    | .encode line => runEncode line s
    | .frame x => runFrame x s
    | .overlong _ => .refused .lineTooLong
    | .idle => .next s
  else .refused .unlawfulTables

/-- The word `w` presented as the Decoder's next request, before those already waiting (log 13). -/
def presentNext (w : Word) (s : State) : State :=
  { s with dec := { s.dec with requests := w :: s.dec.requests } }

end Sys2Proof.Machine
end

