-- ==== Sys2Proof/Machine/Step.lean ====
section
/-! DEFINITION. One step of the block (R233: a transaction is one atomic step from request to result), and how the host places
an instruction as the next one to run. -/

namespace Sys2Proof.Machine

/-- One step: one transaction, or nothing when every port is idle. -/
def step (s : State) : Host.Outcome State Fault Refusal := runTurn s

/-- `s` with the instruction word whose bits are the low `nbits` bits of `w` presented as the Decoder's next request, so that
the very next step runs it. The block fetches nothing (R40): requests come from outside (log 13). -/
def State.withFetchWord (s : State) (nbits w : Nat) : State := presentNext (BitVec.ofNat 32 (w % 2 ^ nbits)) s

end Sys2Proof.Machine
end

