-- ==== Sys2Proof/Machine/Batch.lean ====
section
/-! DEFINITION. The host's batch contract over the collected results (R208, R209, R43): errors with their ordinal index, the overall
status, and the output under a commit policy. The host is outside the block; nothing here changes a state. -/

namespace Sys2Proof.Machine

/-- The error of an Encoder result; `Empty` is no failure (R208). -/
def encError? : EncResult → Option Err
  | .error e => some e
  | _ => none

/-- The word of an Encoder result; `Empty` contributes none (R103, R208). -/
def encWord? : EncResult → Option Word
  | .word w => some w
  | _ => none

/-- The error of a Decoder result. -/
def decError? : DecResult → Option Err
  | .error e => some e
  | .text _ => none

/-- The text of a Decoder result. -/
def decText? : DecResult → Option Bytes
  | .text t => some t
  | .error _ => none

/-- The error of a framing result, which fails the whole stream (R44). -/
def frameError? : FrameResult → Option Err
  | .error e => some e
  | .words _ => none

/-- The errors of a list of results, each with its ordinal index, the first result having index `n` (R208; over several
streams log 11). -/
def indexedFrom {β : Type} (error? : β → Option Err) (n : Nat) : List β → List (Nat × Err)
  | [] => []
  | r :: rest => ((error? r).map fun e => (n, e)).toList ++ indexedFrom error? (n + 1) rest

/-- The errors of a batch, counted from 1 over every line or word given (R208, D27). -/
def indexedErrors {β : Type} (error? : β → Option Err) (rs : List β) : List (Nat × Err) := indexedFrom error? 1 rs

/-- The overall status: zero, or a non-zero value whose number the spec leaves open (R208, D20; log 11). -/
inductive Status where
  | zero
  | nonZero
  deriving DecidableEq, Repr

/-- What is committed of the successful units' outputs (R209): nothing under `atomic` when any unit failed. -/
def committed {γ : Type} (p : BatchCommit) (failed : Bool) (outputs : List γ) : List γ :=
  match p, failed with
  | .atomic, true => []
  | _, _ => outputs

/-- What the host reports of a batch. A stream error has no ordinal index: it is the whole stream's (R44; log 11). -/
structure Report (γ : Type) where
  errors       : List (Nat × Err)
  streamErrors : List Err
  status       : Status
  output       : List γ
  deriving DecidableEq, Repr

/-- Status zero exactly when nothing failed (R208). -/
def statusOf (failed : Bool) : Status := if failed then .nonZero else .zero

/-- The report of an Encoder batch from its results in input order: the output is the words of the successful units. -/
def encReport (p : BatchCommit) (rs : List EncResult) : Report Word :=
  let errors := indexedErrors encError? rs
  let failed := !errors.isEmpty
  ⟨errors, [], statusOf failed, committed p failed (rs.filterMap encWord?)⟩

/-- The report of a Decoder batch from the framing and Decoder results: the output is the lines of the successful units. -/
def decReport (p : BatchCommit) (fs : List FrameResult) (rs : List DecResult) : Report Bytes :=
  let errors := indexedErrors decError? rs
  let streamErrors := fs.filterMap frameError?
  let failed := !errors.isEmpty || !streamErrors.isEmpty
  ⟨errors, streamErrors, statusOf failed, committed p failed (rs.filterMap decText?)⟩

/-- An Encoder batch's output as machine-code bytes (R41, R209). -/
def encOutputBytes (p : BatchCommit) (rs : List EncResult) : Bytes := streamBytes (encReport p rs).output

/-- An Encoder batch's output as bit-string lines (R43, R209). -/
def encOutputLines (p : BatchCommit) (rs : List EncResult) : Bytes := streamLines (encReport p rs).output

/-- An Encoder batch's output as one raw bit string (R43, R209). -/
def encOutputBits (p : BatchCommit) (rs : List EncResult) : Bytes := streamBits (encReport p rs).output

/-- What this instance's host reports of the Encoder results pending in `s`, under its own policy (R209), once every line has been
attempted (R208). While a line waits there is no report: a line longer than `MaxLineLen` never has a result (R30), so the
indices of a batch that holds one are open (DESIGN CHOICE, log 11). It covers the results pending, those since the last
`State.takeResults`: a collection in mid-batch starts the count again at 1 and leaves out earlier errors (DESIGN CHOICE, log 20). -/
def State.encReport (s : State) : Option (Report Word) :=
  if s.enc.requests.isEmpty then some (Machine.encReport Config.batchCommit s.enc.results) else none

/-- What this instance's host reports of the framing and Decoder results pending in `s`, under its own policy (R209), once every
stream and word has been attempted (R208). R208 counts over the words of one framed stream. Where results of several streams, or
of a stream and of single words, are pending together, the count runs straight on through all of them (DESIGN CHOICE,
log 11). It covers the results pending, those since the last `State.takeResults` (DESIGN CHOICE, log 20). -/
def State.decReport (s : State) : Option (Report Bytes) :=
  if s.dec.requests.isEmpty && s.framer.requests.isEmpty then
    some (Machine.decReport Config.batchCommit s.framer.results s.dec.results)
  else none

end Sys2Proof.Machine
end

