-- ==== Sys2Proof/Safety.lean ====
section
/-! DEFINITION. What counts as a safe run: states from which no step is refused, and the invariant that the tables are lawful and
every pending result is one its port can deliver. -/

namespace Sys2Proof.Machine

/-- A Decoder result is a text. -/
def isText : DecResult → Bool
  | .text _ => true
  | .error _ => false

/-- An item of the R format (R63). -/
def isRItem : Item → Bool
  | .instr (.add _ _ _) => true
  | .instr (.lw _ _ _) => false
  | .instr (.sw _ _ _) => false
  | .instr (.beq _ _ _) => false
  | .instr (.bne _ _ _) => false
  | .rRow _ _ _ _ _ => true

/-- A result the Encoder can deliver: a kind of R200 that the Encoder raises, with the payload of R114, or `Empty`, or a word
that decodes to text and, in the R format, has shift amount 0 (R61, R64, R79). -/
def encResultOk (P : Params) : EncResult → Bool
  | .empty => true
  | .word w => isText (decodeText P w) && (opcodeOf w != 0#6 || shamtOf w == 0#5)
  | .error ⟨.unknownInstruction, .text m⟩ => !m.isEmpty
  | .error ⟨.unknownRegister, .text _⟩ => true
  | .error ⟨.malformedOperands, .text s⟩ => !s.isEmpty
  | .error ⟨.invalidOffset, .text _⟩ => true
  | .error _ => false

/-- A result the Decoder can deliver: a text, or a kind of R200 that the Decoder raises with the field of R147. -/
def decResultOk : DecResult → Bool
  | .text t => !t.isEmpty
  | .error ⟨.unknownFunction, .field n⟩ => n < 64
  | .error ⟨.unknownOpcode, .field n⟩ => 0 < n && n < 64
  | .error ⟨.unknownRegister, .field n⟩ => n < 32
  | .error _ => false

/-- A result the framing adapters can deliver (R44, R45). -/
def frameResultOk : FrameResult → Bool
  | .words ws => !ws.isEmpty
  | .error ⟨.invalidWordLength, .length n⟩ => 0 < n
  | .error ⟨.emptyInput, .noPayload⟩ => true
  | .error _ => false

/-- The invariant: lawful tables (R231), and every pending result is one its port can deliver (R200, R201). -/
def State.Inv (s : State) : Prop :=
  s.params.lawful = true ∧
  (∀ r ∈ s.enc.results, encResultOk s.params r = true) ∧
  (∀ r ∈ s.dec.results, decResultOk r = true) ∧
  (∀ r ∈ s.framer.results, frameResultOk r = true)

/-- No step from here is refused: the tables are lawful (R231) and every waiting line is within `MaxLineLen` (R30). -/
def State.Safe (s : State) : Prop :=
  s.params.lawful = true ∧ ∀ line ∈ s.enc.requests, lineFits s.params line = true

/-- `k` steps in a row, stopping at the first refusal. -/
def steps : Nat → State → Host.Outcome State Fault Refusal
  | 0, s => .next s
  | k + 1, s =>
    match step s with
    | .next s' => steps k s'
    | .fault r => .fault r
    | .refused r => .refused r

/-- How many transactions have been answered and not collected. -/
def State.answered (s : State) : Nat := s.enc.results.length + s.dec.results.length + s.framer.results.length

end Sys2Proof.Machine
end

