-- ==== Sys2Proof/Certificates/Slice0/Obligations.lean ====
section
/-! DEFINITION. The statements about the block, for the provers: encodings, the two directions, the step, its invariants, the
framing adapters and the host's batch. "The model's choice" in a docstring names the log entry it rests on; "the spec's own
decision" names the row of spec/92_eei_decisions.md. -/

open Sys2Proof Sys2Proof.Machine

/-! ### Tables, words and instructions -/

/-- Under every lawful table the lookups are inverse to each other: `RegName` to `RegIndex` on 16 names, `RByFunct` to `RTable`,
`IByOp` to `ITable` on opcode; `RTable(add) = 32`; no mnemonic is in both tables; every I opcode is nonzero; and the register
entries the source fixes are there (R13, R22, R24 to R26). -/
def Obligations.LookupsAreInverse : Prop :=
  ∀ P : Params, P.lawful = true →
    (∀ n r, P.regName r = some n ↔ P.regIndex n = some r) ∧
    (∀ m f, P.rByFunct f = some m ↔ P.rFunct m = some f) ∧
    (∀ op k, P.iByOp op = some k ↔ P.iTable.opcode k = op) ∧
    (∀ m f k, P.lookup m = some (.r f) → P.lookup m ≠ some (.i k) ∧ m ≠ k.spelling) ∧
    (∀ k, P.lookup k.spelling = some (.i k) ∧ P.iTable.opcode k ≠ 0#6) ∧
    P.lookup (ascii ['a', 'd', 'd']) = some (.r 32#6) ∧
    P.regTable.length = 16 ∧ (P.regTable.map (·.name)).Nodup ∧ (P.regTable.map (·.index)).Nodup ∧
    P.regName 9#5 = some (ascii ['$', 't', '1']) ∧ P.regName 10#5 = some (ascii ['$', 't', '2']) ∧
    P.regName 11#5 = some (ascii ['$', 't', '3'])

/-- Words written out from the spec's encodings decode to the instructions they stand for (95_test_vectors T-D1, T-D3, T-D10 to
T-D12, T-B3). The I opcodes are the spec's own defaults (D3). -/
def Obligations.SampleWordsDecode : Prop :=
  decodeWord Params.default 0b00000001010010110100100000100000#32 = .ok (.instr (.add 9 10 11)) ∧
  decodeWord Params.default 0b00000001010010110100111111100000#32 = .ok (.instr (.add 9 10 11)) ∧
  decodeWord Params.default 0b10001110000010011111111111111100#32 = .ok (.instr (.lw 9 (-4) 16)) ∧
  decodeWord Params.default 0b10101110000101110111111111111111#32 = .ok (.instr (.sw 23 32767 16)) ∧
  decodeWord Params.default 0b00010010000100011111111111111111#32 = .ok (.instr (.beq 16 17 (-1))) ∧
  decodeWord Params.default 0b00010101000010011000000000000000#32 = .ok (.instr (.bne 8 9 (-32768)))

/-- Under every lawful table, decoding an instruction's word gives the instruction back, for every register field and every
offset in range: no bit of an encoding is dropped (R79 derives its laws from this; R61, R62, R66 to R68). -/
def Obligations.DecodeOfEncode : Prop :=
  ∀ (P : Params) (i : Instr), P.lawful = true → i.OffsetOk → decodeWord P (encode P i) = .ok (.instr i)

/-- Under every lawful table, encoding what a word decodes to gives the word back, but for the shift amount of an R word, which
is cleared (R79 laws 2 and 3 on words); this holds for the instructions of the opcode table and for further R rows. The
decoded offset is always in range. -/
def Obligations.EncodeOfDecode : Prop :=
  ∀ (P : Params) (w : Word) (item : Item), P.lawful = true → decodeWord P w = .ok item →
    encodeItem P item = (if opcodeOf w = 0#6 then w &&& 0xFFFFF83F#32 else w) ∧
    ∀ i, item = .instr i → i.OffsetOk

/-- R66: the offset field of an instruction's word is `lo16` of its offset, which is `x` for `x ≥ 0` and `x + 65536` below. -/
def Obligations.OffsetFieldHoldsLow16 : Prop :=
  (∀ (P : Params) (i : Instr) (x : Int), i.offset? = some x → offsetOf (encode P i) = lo16 x) ∧
  (∀ x : Int, OffsetInRange x → ((lo16 x).toNat : Int) = if 0 ≤ x then x else x + 65536) ∧
  lo16 (-4) = 0b1111111111111100#16

/-- R67: the offset field is read as two's complement, and the decoded instruction carries exactly that integer, unscaled, for
branches too. -/
def Obligations.OffsetFieldReadSigned : Prop :=
  (∀ f : BitVec 16, sext16 f = if f.toNat ≤ 32767 then (f.toNat : Int) else (f.toNat : Int) - 65536) ∧
  (∀ (P : Params) (w : Word) (i : Instr), opcodeOf w ≠ 0#6 → decodeWord P w = .ok (.instr i) →
    i.offset? = some (sext16 (offsetOf w)))

/-- R68: `sext16` and `lo16` are inverse on the range, and the Encoder raises `InvalidOffset` for an integer outside it. -/
def Obligations.OffsetCodecInverse : Prop :=
  (∀ x : Int, OffsetInRange x → sext16 (lo16 x) = x) ∧
  (∀ f : BitVec 16, lo16 (sext16 f) = f ∧ OffsetInRange (sext16 f)) ∧
  (∀ (t : Bytes) (x : Int), offsetValue t = some x → ¬ OffsetInRange x → parseOffset t = .error (invalidOffset t))

/-- R61: the fields of the word of an R-format row `m -> f`: opcode 0, the three registers, shift amount 0, function
`RTable(m)`. -/
def Obligations.RFormatFields : Prop :=
  ∀ (P : Params) (m : Bytes) (f : Funct) (dest source target : RegIdx), P.lawful = true → P.rFunct m = some f →
    let w := encodeItem P (rItem m f dest source target)
    opcodeOf w = 0#6 ∧ sourceOf w = source ∧ targetOf w = target ∧ destOf w = dest ∧ shamtOf w = 0#5 ∧
      P.rFunct m = some (functOf w)

/-- R62: the fields of the word of an I-format instruction: its `ITable` opcode, never 0, the two registers and the offset's
low 16 bits. -/
def Obligations.IFormatFields : Prop :=
  ∀ (P : Params) (k : IMnemonic) (source target : RegIdx) (x : Int), P.lawful = true →
    let w := encode P (iInstr k source target x)
    opcodeOf w = P.iTable.opcode k ∧ opcodeOf w ≠ 0#6 ∧ sourceOf w = source ∧ targetOf w = target ∧ offsetOf w = lo16 x

/-- R63: a word's format is decided by its opcode field alone, and the Encoder picks the format from `Lookup(mnemonic)`. -/
def Obligations.FormatByOpcodeAlone : Prop :=
  (∀ (P : Params) (w : Word) (item : Item), decodeWord P w = .ok item → (isRItem item = true ↔ opcodeOf w = 0#6)) ∧
  (∀ (P : Params) (line : Bytes) (w : Word), P.lawful = true → encodeLine P line = .word w →
    ∃ m operands, tokens P (prepare P line) = m :: operands ∧
      (opcodeOf w = 0#6 → ∃ f, P.lookup m = some (.r f)) ∧ (opcodeOf w ≠ 0#6 → ∃ k, P.lookup m = some (.i k)))

/-- R64: two R words that differ only in bits 10:6 decode to the same result. That the field is not checked is the spec's own
decision (D13). -/
def Obligations.ShiftAmountIgnored : Prop :=
  ∀ (P : Params) (w w' : Word), opcodeOf w = 0#6 → (∀ k, k < 6 ∨ 10 < k → w.getLsbD k = w'.getLsbD k) →
    decodeText P w = decodeText P w'

/-- R142: an R word's result, the function before the registers, then source, target, destination. The order among the registers
and the spacing are the spec's own decisions (D12, D14). Further R rows are printed with their own name (R171). -/
def Obligations.RWordsTranslateInOrder : Prop :=
  ∀ (P : Params) (w : Word), opcodeOf w = 0#6 →
    (P.rByFunct (functOf w) = none → decodeText P w = .error (unknownFunction (functOf w))) ∧
    ∀ m, P.rByFunct (functOf w) = some m →
      (P.regName (sourceOf w) = none → decodeText P w = .error (unknownRegField (sourceOf w))) ∧
      ∀ ns, P.regName (sourceOf w) = some ns →
        (P.regName (targetOf w) = none → decodeText P w = .error (unknownRegField (targetOf w))) ∧
        ∀ nt, P.regName (targetOf w) = some nt →
          (P.regName (destOf w) = none → decodeText P w = .error (unknownRegField (destOf w))) ∧
          ∀ nd, P.regName (destOf w) = some nd →
            decodeText P w = .text (m ++ [0x20#8] ++ nd ++ [0x2C#8, 0x20#8] ++ ns ++ [0x2C#8, 0x20#8] ++ nt)

/-- R143: an I word's result, the opcode before the registers, then source, target; the two shapes' texts. The order among the
registers and the spacing are the spec's own decisions (D12, D14). -/
def Obligations.IWordsTranslateInOrder : Prop :=
  ∀ (P : Params) (w : Word), opcodeOf w ≠ 0#6 →
    (P.iByOp (opcodeOf w) = none → decodeText P w = .error (unknownOpcode (opcodeOf w))) ∧
    ∀ k, P.iByOp (opcodeOf w) = some k →
      (P.regName (sourceOf w) = none → decodeText P w = .error (unknownRegField (sourceOf w))) ∧
      ∀ ns, P.regName (sourceOf w) = some ns →
        (P.regName (targetOf w) = none → decodeText P w = .error (unknownRegField (targetOf w))) ∧
        ∀ nt, P.regName (targetOf w) = some nt →
          decodeText P w = .text (match k.shape with
            | .memory => k.spelling ++ [0x20#8] ++ nt ++ [0x2C#8, 0x20#8] ++ decText (sext16 (offsetOf w)) ++ [0x28#8] ++ ns ++ [0x29#8]
            | .branch => k.spelling ++ [0x20#8] ++ ns ++ [0x2C#8, 0x20#8] ++ nt ++ [0x2C#8, 0x20#8] ++ decText (sext16 (offsetOf w)))

/-- R69, R70 under the default tables: every opcode but 0, 4, 5, 35 and 43 is `UnknownOpcode`, and with opcode 0 every function
but 32 is `UnknownFunction`. The table contents are the spec's own defaults (D3, D4; log 4). -/
def Obligations.OtherCodesUnknownByDefault : Prop :=
  (∀ w : Word, opcodeOf w ∉ [0#6, 4#6, 5#6, 35#6, 43#6] →
    decodeText Params.default w = .error ⟨.unknownOpcode, .field (opcodeOf w).toNat⟩) ∧
  (∀ w : Word, opcodeOf w = 0#6 → functOf w ≠ 32#6 →
    decodeText Params.default w = .error ⟨.unknownFunction, .field (functOf w).toNat⟩)

/-! ### The instructions: what each does with the transaction in progress -/

/-- `add` completes (R170): a Decoder transaction with its text, an Encoder transaction with its word. Texts are spelled by the
spec's own decision D14. -/
def Obligations.AddCompletes : Prop :=
  ∀ (s : State) (dest source target : RegIdx),
    (∀ w nd ns nt, s.turn = .decode w → s.params.regName dest = some nd → s.params.regName source = some ns →
      s.params.regName target = some nt →
      exec (.add dest source target) s =
        .next (s.answerDec (.text
          (ascii ['a', 'd', 'd', ' '] ++ nd ++ ascii [',', ' '] ++ ns ++ ascii [',', ' '] ++ nt)))) ∧
    (∀ line, s.turn = .encode line →
      exec (.add dest source target) s =
        .next (s.answerEnc (.word (0b000000#6 ++ source ++ target ++ dest ++ 0b00000#5 ++ 0b100000#6))))

/-- `lw` and `sw` complete (R180, R181): a Decoder transaction with the text `m target, offset(source)`, an Encoder transaction with
the word of the instruction's opcode, its registers and the low 16 bits of its offset. No address is formed. Texts are spelled
by the spec's own decision D14. -/
def Obligations.MemInstructionsComplete : Prop :=
  ∀ (s : State) (target : RegIdx) (x : Int) (source : RegIdx),
    (∀ w ns nt, s.turn = .decode w → s.params.regName source = some ns → s.params.regName target = some nt →
      exec (.lw target x source) s = .next (s.answerDec (.text
        (ascii ['l', 'w', ' '] ++ nt ++ ascii [',', ' '] ++ decText x ++ ascii ['('] ++ ns ++ ascii [')']))) ∧
      exec (.sw target x source) s = .next (s.answerDec (.text
        (ascii ['s', 'w', ' '] ++ nt ++ ascii [',', ' '] ++ decText x ++ ascii ['('] ++ ns ++ ascii [')'])))) ∧
    (∀ line, s.turn = .encode line →
      exec (.lw target x source) s = .next (s.answerEnc (.word (s.params.iTable.lw ++ source ++ target ++ lo16 x))) ∧
      exec (.sw target x source) s = .next (s.answerEnc (.word (s.params.iTable.sw ++ source ++ target ++ lo16 x))))

/-- `beq` and `bne` complete (R190, R191): a Decoder transaction with the text `m source, target, offset`, an Encoder transaction
with the word of the instruction's opcode, its registers and the low 16 bits of its offset, carried as written. Texts are
spelled by the spec's own decision D14. -/
def Obligations.BranchInstructionsComplete : Prop :=
  ∀ (s : State) (source target : RegIdx) (x : Int),
    (∀ w ns nt, s.turn = .decode w → s.params.regName source = some ns → s.params.regName target = some nt →
      exec (.beq source target x) s = .next (s.answerDec (.text
        (ascii ['b', 'e', 'q', ' '] ++ ns ++ ascii [',', ' '] ++ nt ++ ascii [',', ' '] ++ decText x))) ∧
      exec (.bne source target x) s = .next (s.answerDec (.text
        (ascii ['b', 'n', 'e', ' '] ++ ns ++ ascii [',', ' '] ++ nt ++ ascii [',', ' '] ++ decText x)))) ∧
    (∀ line, s.turn = .encode line →
      exec (.beq source target x) s = .next (s.answerEnc (.word (s.params.iTable.beq ++ source ++ target ++ lo16 x))) ∧
      exec (.bne source target x) s = .next (s.answerEnc (.word (s.params.iTable.bne ++ source ++ target ++ lo16 x))))

/-- Where an instruction of a Decoder transaction reports an error instead (R142, R143, R170 to R191): the first register with no
name, in the order source, target, destination (the spec's own decision D12). The transaction still ends with a result. -/
def Obligations.UnnamedRegisterReported : Prop :=
  ∀ (s : State) (w : Word), s.turn = .decode w →
    (∀ source target, s.params.regName source = none →
      (∀ dest, exec (.add dest source target) s = .next (s.answerDec (.error (unknownRegField source)))) ∧
      ∀ x, exec (.lw target x source) s = .next (s.answerDec (.error (unknownRegField source))) ∧
        exec (.sw target x source) s = .next (s.answerDec (.error (unknownRegField source))) ∧
        exec (.beq source target x) s = .next (s.answerDec (.error (unknownRegField source))) ∧
        exec (.bne source target x) s = .next (s.answerDec (.error (unknownRegField source)))) ∧
    (∀ source target ns, s.params.regName source = some ns → s.params.regName target = none →
      (∀ dest, exec (.add dest source target) s = .next (s.answerDec (.error (unknownRegField target)))) ∧
      ∀ x, exec (.lw target x source) s = .next (s.answerDec (.error (unknownRegField target))) ∧
        exec (.sw target x source) s = .next (s.answerDec (.error (unknownRegField target))) ∧
        exec (.beq source target x) s = .next (s.answerDec (.error (unknownRegField target))) ∧
        exec (.bne source target x) s = .next (s.answerDec (.error (unknownRegField target)))) ∧
    (∀ dest source target ns nt, s.params.regName source = some ns → s.params.regName target = some nt →
      s.params.regName dest = none →
      exec (.add dest source target) s = .next (s.answerDec (.error (unknownRegField dest))))

/-- The frame of all five instructions (R20, R29, R47, R170 to R191 "No state is written"): the tables and the framing port are
unchanged; a Decoder transaction leaves the Encoder port alone, takes its own request and adds one result; an Encoder
transaction the other way round, taking the first line within `MaxLineLen` from behind overlong ones (log 18), and its result is
a word. With no transaction in progress at either port nothing changes at all (that case is the model's choice, log 14). -/
def Obligations.InstructionFrame : Prop :=
  ∀ (i : Instr) (s s' : State), exec i s = .next s' →
    s'.params = s.params ∧ s'.framer = s.framer ∧
    (∀ w, s.turn = .decode w → s'.enc = s.enc ∧ s.dec.requests = w :: s'.dec.requests ∧
      ∃ r, s'.dec.results = s.dec.results ++ [r]) ∧
    (∀ line, s.turn = .encode line → s'.dec = s.dec ∧
      (∃ pre rest, s.enc.requests = pre ++ line :: rest ∧ s'.enc.requests = pre ++ rest ∧
        ∀ l ∈ pre, lineFits s.params l = false) ∧
      ∃ v, s'.enc.results = s.enc.results ++ [.word v]) ∧
    ((∀ w, s.turn ≠ .decode w) → (∀ line, s.turn ≠ .encode line) → s' = s)

/-! ### The step -/

/-- A step runs the decoded instruction: when the word in progress at the Decoder decodes to an instruction, or the line in
progress at the Encoder reads as one, the step is `exec` of it and nothing more. -/
def Obligations.StepRunsDecodedInstruction : Prop :=
  ∀ (s : State) (i : Instr), s.params.lawful = true →
    (∀ w, s.turn = .decode w → decodeWord s.params w = .ok (.instr i) → step s = exec i s) ∧
    (∀ line, s.turn = .encode line → parseLine s.params line = .ok (some (.instr i)) →
      step s = exec i s)

/-- A step answers the Decoder transaction in progress with `Decode(w)` and changes nothing else (R140, R47). -/
def Obligations.StepAnswersDecoder : Prop :=
  ∀ (s : State) (w : Word), s.params.lawful = true → s.turn = .decode w →
    step s = .next (s.answerDec (decodeText s.params w))

/-- With no word waiting, a step answers the first waiting line within `MaxLineLen` with `Encode(line)` and changes nothing else
(R100, R47). Overlong lines before it stay where they are and delay it by nothing (R30, R232; log 18). That lines wait for
words is the model's choice (log 1). -/
def Obligations.StepAnswersEncoder : Prop :=
  ∀ (s : State) (pre rest : List Bytes) (line : Bytes), s.params.lawful = true → s.dec.requests = [] →
    s.enc.requests = pre ++ line :: rest → (∀ l ∈ pre, lineFits s.params l = false) → lineFits s.params line = true →
    step s = .next { s with enc := ⟨pre ++ rest, s.enc.results ++ [encodeLine s.params line]⟩ }

/-- A step frames the stream in progress (R44, R45): an error leaves every other port alone, and the words of a well-framed stream
go to the Decoder in order (log 10). With every port idle a step changes nothing (R213; log 14). -/
def Obligations.StepFramesOrIdles : Prop :=
  (∀ (s : State) (x : Stream) (e : Err), s.params.lawful = true → s.turn = .frame x → frame x = .error e →
    step s = .next { s with framer := ⟨s.framer.requests.tail, s.framer.results ++ [.error e]⟩ }) ∧
  (∀ (s : State) (x : Stream) (ws : List Word), s.params.lawful = true → s.turn = .frame x → frame x = .words ws →
    step s = .next { s with
      framer := ⟨s.framer.requests.tail, s.framer.results ++ [.words ws]⟩
      dec := ⟨ws, s.dec.results⟩ }) ∧
  (∀ s : State, s.params.lawful = true → s.turn = .idle → step s = .next s)

/-- A word presented as the Decoder's next request is what the very next step runs, and nothing else of the state changes: its
result joins the Decoder's, and the requests waiting before are waiting after (R31, R140; log 13). -/
def Obligations.FetchWordRunsNext : Prop :=
  ∀ (s : State) (w : Word), s.params.lawful = true →
    (s.withFetchWord 32 w.toNat).turn = .decode w ∧
    step (s.withFetchWord 32 w.toNat) =
      .next { s with dec := ⟨s.dec.requests, s.dec.results ++ [decodeText s.params w]⟩ }

/-- Where there is no transition: unlawful tables (R231) and, under lawful ones, exactly when nothing waits at any port but Encoder
lines longer than `MaxLineLen` (R30). That both are refused is the spec's own decision (D22, D23); that an overlong line stops no
other request is DEDUCED (log 18). -/
def Obligations.StepRefusesOnlyThese : Prop :=
  (∀ s : State, s.params.lawful = false → step s = .refused .unlawfulTables) ∧
  (∀ (s : State) (n : Nat), s.params.lawful = true → s.dec.requests = [] → s.framer.requests = [] → s.enc.requests ≠ [] →
    s.params.maxLineLen = some n → (∀ line ∈ s.enc.requests, n < line.length) → step s = .refused .lineTooLong) ∧
  (∀ (s : State) (r : Refusal), s.params.lawful = true → step s = .refused r →
    r = .lineTooLong ∧ s.dec.requests = [] ∧ s.framer.requests = [] ∧ s.enc.requests ≠ [] ∧
      ∃ n, s.params.maxLineLen = some n ∧ ∀ line ∈ s.enc.requests, n < line.length)

/-- R20: the result of a transaction is a function of its request and the parameters alone. Two states with equal parameters and
the same transaction in progress answer it with the same result, whatever their ports hold besides. -/
def Obligations.ResultFromRequestAlone : Prop :=
  ∀ (s t s' t' : State), s.params = t.params → s.turn = t.turn → step s = .next s' → step t = .next t' →
    (∀ w, s.turn = .decode w → ∃ r, s'.dec.results = s.dec.results ++ [r] ∧ t'.dec.results = t.dec.results ++ [r]) ∧
    (∀ line, s.turn = .encode line → ∃ r, s'.enc.results = s.enc.results ++ [r] ∧ t'.enc.results = t.enc.results ++ [r]) ∧
    (∀ x, s.turn = .frame x →
      ∃ r, s'.framer.results = s.framer.results ++ [r] ∧ t'.framer.results = t.framer.results ++ [r])

/-- R29, R20: no step writes the tables or a parameter, and earlier results stay as they were delivered. -/
def Obligations.StepKeepsTablesAndResults : Prop :=
  ∀ s s' : State, step s = .next s' →
    s'.params = s.params ∧ s.enc.results <+: s'.enc.results ∧ s.dec.results <+: s'.dec.results ∧
      s.framer.results <+: s'.framer.results

/-- R47: a step with a transaction in progress delivers exactly one whole result. That a step with every port idle answers and
changes nothing is the model's choice (DESIGN CHOICE, log 14). -/
def Obligations.StepIsOneTransaction : Prop :=
  ∀ s s' : State, step s = .next s' →
    (s.turn = .idle → s' = s) ∧ (s.turn ≠ .idle → s'.answered = s.answered + 1)

/-- The invariant `State.Inv` is kept by every step: the tables stay lawful, and every pending result is one its port can
deliver (R200, R201, R114, R147; a word the Encoder delivered decodes, R79). -/
def Obligations.StepKeepsInv : Prop :=
  ∀ s s' : State, s.Inv → step s = .next s' → s'.Inv

/-- The reset state meets the invariant. -/
def Obligations.ResetMeetsInv : Prop := State.reset.Inv ∧ State.reset.Safe

/-- R234: from a state whose tables are lawful and whose waiting lines are within `MaxLineLen`, every step answers, a transaction in
progress ends with exactly one result, and the state after it is of the same kind: no input makes the block hang. -/
def Obligations.SafeStepAnswers : Prop :=
  ∀ s : State, s.Safe → ∃ s', step s = .next s' ∧ s'.Safe ∧ (s.turn ≠ .idle → s'.answered = s.answered + 1)

/-- R32: after reset all ports are idle, and the tables and parameters hold their contents. The contents are the spec's own
defaults (D2 to D6, D23; log 4, log 5), and that the framing port is empty is the model's choice (log 10). -/
def Obligations.ResetContents : Prop :=
  State.reset.enc = Port.idle ∧ State.reset.dec = Port.idle ∧ State.reset.framer = Port.idle ∧
  (State.reset.params.regTable.map fun r => (r.name, r.index.toNat)) =
    ((List.range 8).map fun k => ([0x24#8, 0x74#8, BitVec.ofNat 8 (0x30 + k)], 8 + k)) ++
      ((List.range 8).map fun k => ([0x24#8, 0x73#8, BitVec.ofNat 8 (0x30 + k)], 16 + k)) ∧
  State.reset.params.rTable = [⟨kwAdd, 32#6⟩] ∧ State.reset.params.iTable = ⟨35#6, 43#6, 4#6, 5#6⟩ ∧
  State.reset.params.commentChar = 0x23#8 ∧ State.reset.params.ws = [0x09#8, 0x0A#8, 0x0B#8, 0x0C#8, 0x0D#8, 0x20#8] ∧
  State.reset.params.maxLineLen = none ∧ State.reset.params.lawful = true

/-- R230: reset of a running block brings every port to idle, changes no table and no parameter, and the first transaction after
it returns what the same request returns at any other time. What reset does is the spec's own decision (D22); that it drops the
requests still waiting is DEDUCED (log 16), and that it empties the framing port too is the model's choice (log 10). -/
def Obligations.ResetPortsUnobservable : Prop :=
  ∀ s : State,
    s.resetPorts.params = s.params ∧ s.resetPorts.turn = .idle ∧ s.resetPorts.answered = 0 ∧
    (∀ w, s.params.lawful = true →
      step (s.resetPorts.presentWord w) =
        .next { s.resetPorts with dec := ⟨[], [decodeText s.params w]⟩ }) ∧
    (∀ line, s.params.lawful = true → lineFits s.params line = true →
      step (s.resetPorts.presentLine line) =
        .next { s.resetPorts with enc := ⟨[], [encodeLine s.params line]⟩ })

/-! ### Encoder: the line and its checks in order -/

/-- R103: `Trim` removes every leading and trailing whitespace byte and nothing else; the result is `Empty` exactly when the
prepared line is empty, which covers the empty line, an all-whitespace line and a line whose first non-whitespace byte is the
comment marker; and a batch without errors yields one word per line that is not blank. -/
def Obligations.BlankLinesGiveEmpty : Prop :=
  ∀ P : Params,
    (∀ s : Bytes, ∃ a b : Bytes, s = a ++ trim P s ++ b ∧ (∀ c ∈ a, P.isWs c = true) ∧ (∀ c ∈ b, P.isWs c = true) ∧
      (∀ c ∈ (trim P s).head?, P.isWs c = false) ∧ (∀ c ∈ (trim P s).getLast?, P.isWs c = false)) ∧
    (∀ line : Bytes, encodeLine P line = .empty ↔ trim P (stripComment P line) = []) ∧
    encodeLine P [] = .empty ∧
    (∀ line : Bytes, (∀ c ∈ line, P.isWs c = true) → encodeLine P line = .empty) ∧
    (∀ a b : Bytes, (∀ c ∈ a, P.isWs c = true) → encodeLine P (a ++ P.commentChar :: b) = .empty) ∧
    (∀ lines : List Bytes, (∀ line ∈ lines, encError? (encodeLine P line) = none) →
      ((lines.map (encodeLine P)).filterMap encWord?).length =
        (lines.filter fun line => !(prepare P line).isEmpty).length)

/-- R101: everything from the first comment marker on is discarded, and a line without one is unchanged. The default marker is
the spec's own decision (D5) and no part of this. -/
def Obligations.CommentDiscarded : Prop :=
  ∀ (P : Params) (a b : Bytes), P.commentChar ∉ a →
    stripComment P a = a ∧ stripComment P (a ++ P.commentChar :: b) = a ∧
      encodeLine P (a ++ P.commentChar :: b) = encodeLine P a

/-- R104: the tokens are the maximal runs of non-whitespace bytes, in order, and a comma is part of the token it touches. The
four clauses determine the list; the last is the rule's example. -/
def Obligations.TokensAreMaximalRuns : Prop :=
  (∀ P : Params, tokens P [] = []) ∧
  (∀ (P : Params) (c : Byte) (rest : Bytes), P.isWs c = true → tokens P (c :: rest) = tokens P rest) ∧
  (∀ (P : Params) (run : Bytes), run ≠ [] → (∀ c ∈ run, P.isWs c = false) → tokens P run = [run]) ∧
  (∀ (P : Params) (run : Bytes) (c : Byte) (rest : Bytes), run ≠ [] → (∀ d ∈ run, P.isWs d = false) → P.isWs c = true →
    tokens P (run ++ c :: rest) = run :: tokens P rest) ∧
  (∀ (P : Params) (s t : Bytes), t ∈ tokens P s → t ≠ [] ∧ ∀ c ∈ t, P.isWs c = false) ∧
  ∀ P : Params, P.isWs 0x20#8 = true → (∀ c ∈ ascii ['a', 'd', '$', 't', '1', '2', '3', ','], P.isWs c = false) →
    tokens P (ascii ['a', 'd', 'd', ' ', '$', 't', '1', ',', '$', 't', '2', ',', '$', 't', '3']) =
      [ascii ['a', 'd', 'd'], ascii ['$', 't', '1', ',', '$', 't', '2', ',', '$', 't', '3']]

/-- R105, R100: a first token in no table is `UnknownInstruction` of it, whatever its operands. Exact match of the unstripped
token is the spec's own decision (D7, D8). -/
def Obligations.MnemonicCheckedFirst : Prop :=
  ∀ (P : Params) (line m : Bytes) (operands : List Bytes), tokens P (prepare P line) = m :: operands →
    (∀ r ∈ P.rTable, r.mnemonic ≠ m) → (∀ k : IMnemonic, k.spelling ≠ m) →
    encodeLine P line = .error ⟨.unknownInstruction, .text m⟩

/-- R106: `StripSep` removes every trailing comma and nothing else (the spec's own decision D7). -/
def Obligations.TrailingCommasStripped : Prop :=
  ∀ t : Bytes, (∃ n, t = stripSep t ++ List.replicate n 0x2C#8) ∧ (stripSep t).getLast? ≠ some 0x2C#8

/-- R111: an R-format line, the token count, then destination, source, target, and the word. The order among the registers is the
spec's own decision (D11). -/
def Obligations.RLinesCheckedInOrder : Prop :=
  ∀ (P : Params) (line m : Bytes) (operands : List Bytes) (f : Funct), P.lawful = true →
    tokens P (prepare P line) = m :: operands → P.lookup m = some (.r f) →
    (operands.length ≠ 3 → encodeLine P line = .error ⟨.malformedOperands, .text (prepare P line)⟩) ∧
    ∀ d a b, operands = [d, a, b] →
      (P.regIndex (stripSep d) = none → encodeLine P line = .error ⟨.unknownRegister, .text (stripSep d)⟩) ∧
      ∀ rd, P.regIndex (stripSep d) = some rd →
        (P.regIndex (stripSep a) = none → encodeLine P line = .error ⟨.unknownRegister, .text (stripSep a)⟩) ∧
        ∀ rs, P.regIndex (stripSep a) = some rs →
          (P.regIndex (stripSep b) = none → encodeLine P line = .error ⟨.unknownRegister, .text (stripSep b)⟩) ∧
          ∀ rt, P.regIndex (stripSep b) = some rt →
            encodeLine P line = .word (0b000000#6 ++ rs ++ rt ++ rd ++ 0b00000#5 ++ f)

/-- R112: a memory-shape line, the token count, then delimiters, offset, source, target, and the word. Source before target is
the spec's own decision (D11), and so is the split's grammar (D10). -/
def Obligations.MemLinesCheckedInOrder : Prop :=
  ∀ (P : Params) (line m : Bytes) (operands : List Bytes) (k : IMnemonic), P.lawful = true →
    tokens P (prepare P line) = m :: operands → P.lookup m = some (.i k) → k.shape = .memory →
    (operands.length ≠ 2 → encodeLine P line = .error ⟨.malformedOperands, .text (prepare P line)⟩) ∧
    ∀ t o, operands = [t, o] →
      (∀ e, splitMem (prepare P line) (stripSep o) = .error e →
        encodeLine P line = .error ⟨.malformedOperands, .text (prepare P line)⟩) ∧
      ∀ ot bt, splitMem (prepare P line) (stripSep o) = .ok (ot, bt) →
        (∀ e, parseOffset ot = .error e → encodeLine P line = .error ⟨.invalidOffset, .text ot⟩) ∧
        ∀ x, parseOffset ot = .ok x →
          (P.regIndex bt = none → encodeLine P line = .error ⟨.unknownRegister, .text bt⟩) ∧
          ∀ rs, P.regIndex bt = some rs →
            (P.regIndex (stripSep t) = none → encodeLine P line = .error ⟨.unknownRegister, .text (stripSep t)⟩) ∧
            ∀ rt, P.regIndex (stripSep t) = some rt →
              encodeLine P line = .word (P.iTable.opcode k ++ rs ++ rt ++ lo16 x)

/-- R113: a branch-shape line, the token count, then offset, source, target, and the word. Source before target is the spec's own
decision (D11). -/
def Obligations.BranchLinesCheckedInOrder : Prop :=
  ∀ (P : Params) (line m : Bytes) (operands : List Bytes) (k : IMnemonic), P.lawful = true →
    tokens P (prepare P line) = m :: operands → P.lookup m = some (.i k) → k.shape = .branch →
    (operands.length ≠ 3 → encodeLine P line = .error ⟨.malformedOperands, .text (prepare P line)⟩) ∧
    ∀ a b o, operands = [a, b, o] →
      (∀ e, parseOffset (stripSep o) = .error e → encodeLine P line = .error ⟨.invalidOffset, .text (stripSep o)⟩) ∧
      ∀ x, parseOffset (stripSep o) = .ok x →
        (P.regIndex (stripSep a) = none → encodeLine P line = .error ⟨.unknownRegister, .text (stripSep a)⟩) ∧
        ∀ rs, P.regIndex (stripSep a) = some rs →
          (P.regIndex (stripSep b) = none → encodeLine P line = .error ⟨.unknownRegister, .text (stripSep b)⟩) ∧
          ∀ rt, P.regIndex (stripSep b) = some rt →
            encodeLine P line = .word (P.iTable.opcode k ++ rs ++ rt ++ lo16 x)

/-- R108: exactly the texts `[+-]?[0-9]+` have a value, the exact base-10 integer, whatever its length. The grammar is the
spec's own decision (D9). -/
def Obligations.OffsetGrammar : Prop :=
  (∀ t : Bytes, (∃ x, offsetValue t = some x) ↔
    ∃ sign ds : Bytes, t = sign ++ ds ∧ (sign = [] ∨ sign = [0x2B#8] ∨ sign = [0x2D#8]) ∧ ds ≠ [] ∧
      ∀ c ∈ ds, isDigit c = true) ∧
  (∀ (t : Bytes) (n : Nat) (c : Byte), digitsValue t = some n → isDigit c = true →
    digitsValue (t ++ [c]) = some (10 * n + (c.toNat - 48))) ∧
  (∀ c : Byte, isDigit c = true → digitsValue [c] = some (c.toNat - 48)) ∧
  (∀ (ds : Bytes) (n : Nat), digitsValue ds = some n →
    offsetValue ds = some (n : Int) ∧ offsetValue (0x2B#8 :: ds) = some (n : Int) ∧ offsetValue (0x2D#8 :: ds) = some (-(n : Int)))

/-- R109: a value below -32768 or above 32767 is `InvalidOffset` of the text, any other is returned; with the rule's examples
32767, -32768, 32768, -32769, -0 and +0. -/
def Obligations.OffsetRangeChecked : Prop :=
  (∀ (t : Bytes) (x : Int), offsetValue t = some x →
    (x < -32768 ∨ 32767 < x → parseOffset t = .error ⟨.invalidOffset, .text t⟩) ∧
    (-32768 ≤ x → x ≤ 32767 → parseOffset t = .ok x)) ∧
  parseOffset (ascii ['3', '2', '7', '6', '7']) = .ok 32767 ∧
  parseOffset (ascii ['-', '3', '2', '7', '6', '8']) = .ok (-32768) ∧
  parseOffset (ascii ['3', '2', '7', '6', '8']) =
    .error ⟨.invalidOffset, .text (ascii ['3', '2', '7', '6', '8'])⟩ ∧
  parseOffset (ascii ['-', '3', '2', '7', '6', '9']) =
    .error ⟨.invalidOffset, .text (ascii ['-', '3', '2', '7', '6', '9'])⟩ ∧
  sext16 (lo16 32767) = 32767 ∧ sext16 (lo16 (-32768)) = -32768 ∧
  parseOffset (ascii ['-', '0']) = .ok 0 ∧ parseOffset (ascii ['+', '0']) = .ok 0

/-- R110: the memory operand splits exactly when it is a text, `(`, a text and `)`, neither text holding a parenthesis. That
grammar is the spec's own decision (D10). -/
def Obligations.MemOperandSplit : Prop :=
  ∀ line t ot bt : Bytes,
    (splitMem line t = .ok (ot, bt) ↔
      t = ot ++ [0x28#8] ++ bt ++ [0x29#8] ∧ (0x28#8 ∉ ot ∧ 0x29#8 ∉ ot) ∧ (0x28#8 ∉ bt ∧ 0x29#8 ∉ bt)) ∧
    (∀ e, splitMem line t = .error e → e = ⟨.malformedOperands, .text line⟩)

/-! ### Text and round trips -/

/-- R144: decimal rendering reads back as the same integer, holds only digits after an optional `-` that stands exactly before a
negative number, and has no leading zero. The spelling is the spec's own decision (D14). -/
def Obligations.DecimalReadsBack : Prop :=
  ∀ x : Int, offsetValue (decText x) = some x ∧
    ∃ ds : Bytes, decText x = (if x < 0 then [0x2D#8] else []) ++ ds ∧ ds ≠ [] ∧ (∀ c ∈ ds, isDigit c = true) ∧
      (ds.head? = some 0x30#8 → ds = [0x30#8])

/-- R170: the line `add d, s, t` encodes to the word of its three registers, under every lawful table and every lexical
parameter that keeps canonical text readable (`plainText`, log 8), without regard to `MaxLineLen` (log 19). -/
def Obligations.AddLineEncodes : Prop :=
  ∀ (P : Params) (d s t : Bytes) (rd rs rt : RegIdx), P.lawful = true → P.plainText = true →
    P.regIndex d = some rd → P.regIndex s = some rs → P.regIndex t = some rt →
    encodeLine P (kwAdd ++ [0x20#8] ++ d ++ [0x2C#8, 0x20#8] ++ s ++ [0x2C#8, 0x20#8] ++ t) =
      .word (0b000000#6 ++ rs ++ rt ++ rd ++ 0b00000#5 ++ 0b100000#6)

/-- R180, R181: the lines `lw t, x(s)` and `sw t, x(s)` encode to their words (`plainText`, log 8), without regard to `MaxLineLen` (log 19). -/
def Obligations.MemLineEncodes : Prop :=
  ∀ (P : Params) (k : IMnemonic) (s t : Bytes) (rs rt : RegIdx) (x : Int), P.lawful = true → P.plainText = true →
    k.shape = .memory → P.regIndex s = some rs → P.regIndex t = some rt → OffsetInRange x →
    encodeLine P (k.spelling ++ [0x20#8] ++ t ++ [0x2C#8, 0x20#8] ++ decText x ++ [0x28#8] ++ s ++ [0x29#8]) =
      .word (P.iTable.opcode k ++ rs ++ rt ++ lo16 x)

/-- R190, R191: the lines `beq s, t, x` and `bne s, t, x` encode to their words (`plainText`, log 8), without regard to `MaxLineLen` (log 19). -/
def Obligations.BranchLineEncodes : Prop :=
  ∀ (P : Params) (k : IMnemonic) (s t : Bytes) (rs rt : RegIdx) (x : Int), P.lawful = true → P.plainText = true →
    k.shape = .branch → P.regIndex s = some rs → P.regIndex t = some rt → OffsetInRange x →
    encodeLine P (k.spelling ++ [0x20#8] ++ s ++ [0x2C#8, 0x20#8] ++ t ++ [0x2C#8, 0x20#8] ++ decText x) =
      .word (P.iTable.opcode k ++ rs ++ rt ++ lo16 x)

/-- R79 law 1: a line that encodes decodes to its canonical text, which encodes to the same word. The second half needs
`plainText`, which R79 leaves unsaid (log 8). Like `encodeLine` it speaks of texts of any length, whatever `MaxLineLen` is
(the model's choice, log 19). -/
def Obligations.EncodedLineRoundTrips : Prop :=
  ∀ (P : Params) (line : Bytes) (w : Word), P.lawful = true → encodeLine P line = .word w →
    ∃ c, decodeText P w = .text c ∧ (P.plainText = true → encodeLine P c = .word w)

/-- R79 laws 2 and 3: a text the Decoder gives encodes to the word it came from, with the shift amount of an R word cleared; so
decode then encode is the identity exactly on the words that decode and have a nonzero opcode or shift amount 0. It needs
`plainText`, which R79 leaves unsaid (log 8). Like `encodeLine` it speaks of texts of any length, whatever `MaxLineLen` is
(the model's choice, log 19). -/
def Obligations.DecodedWordRoundTrips : Prop :=
  ∀ (P : Params) (w : Word) (c : Bytes), P.lawful = true → P.plainText = true → decodeText P w = .text c →
    encodeLine P c = .word (if opcodeOf w = 0#6 then w &&& 0xFFFFF83F#32 else w) ∧
    (encodeLine P c = .word w ↔ opcodeOf w ≠ 0#6 ∨ shamtOf w = 0#5)

/-- R171: a further R row `m -> f` is translated exactly as `add` with its own name and code: every word of opcode 0 and function
`f` whose fields name registers decodes to its text, whatever its shift amount, and its lines encode to its words. The
encode half needs `plainText` (log 8), and speaks of lines of any length (log 19). -/
def Obligations.FurtherRowsTranslateAsAdd : Prop :=
  ∀ (P : Params) (m d s t : Bytes) (f : Funct) (rd rs rt : RegIdx), P.lawful = true →
    P.rFunct m = some f → P.regIndex d = some rd → P.regIndex s = some rs → P.regIndex t = some rt →
    (∀ w : Word, opcodeOf w = 0#6 → functOf w = f → sourceOf w = rs → targetOf w = rt → destOf w = rd →
      decodeText P w = .text (m ++ [0x20#8] ++ d ++ [0x2C#8, 0x20#8] ++ s ++ [0x2C#8, 0x20#8] ++ t)) ∧
    (P.plainText = true →
      encodeLine P (m ++ [0x20#8] ++ d ++ [0x2C#8, 0x20#8] ++ s ++ [0x2C#8, 0x20#8] ++ t) =
        .word (0b000000#6 ++ rs ++ rt ++ rd ++ 0b00000#5 ++ f))

/-! ### Serialisation and framing -/

/-- R41: a word serialises to four bytes, most significant first, a stream of words to those bytes one after the other with nothing
between and nothing before. -/
def Obligations.WordsSerialiseBigEndian : Prop :=
  (∀ w : Word, streamBytes [w] =
    [w.extractLsb' 24 8, w.extractLsb' 16 8, w.extractLsb' 8 8, w.extractLsb' 0 8] ∧
    (0x1000000 * (w.extractLsb' 24 8).toNat + 0x10000 * (w.extractLsb' 16 8).toNat + 0x100 * (w.extractLsb' 8 8).toNat
      + (w.extractLsb' 0 8).toNat = w.toNat)) ∧
  streamBytes [] = [] ∧
  (∀ us vs : List Word, streamBytes (us ++ vs) = streamBytes us ++ streamBytes vs) ∧
  (∀ ws : List Word, (streamBytes ws).length = 4 * ws.length)

/-- R42: the bit string of a word has 32 characters, and position `i` from the left is the digit of `w[31-i]`; with the rule's
example, for every lawful table under which canonical text is readable (`plainText`, DEDUCED, log 8). -/
def Obligations.WordBitsMsbFirst : Prop :=
  (∀ w : Word, (wordBits w).length = 32 ∧
    ∀ i, i < 32 → (wordBits w)[i]? = some (if w.getLsbD (31 - i) = false then 0x30#8 else 0x31#8)) ∧
  (∀ P : Params, P.lawful = true → P.plainText = true → ∃ w, encodeLine P
      (ascii ['a', 'd', 'd', ' ', '$', 't', '1', ',', ' ', '$', 't', '2', ',', ' ', '$', 't', '3']) = .word w ∧
    wordBits w = ascii ['0', '0', '0', '0', '0', '0', '0', '1', '0', '1', '0', '0', '1', '0', '1', '1', '0', '1', '0', '0',
      '1', '0', '0', '0', '0', '0', '1', '0', '0', '0', '0', '0'])

/-- R44: framing a byte stream inverts its serialisation, a stream of 4n bytes gives n words that serialise to it, and any other
stream is rejected as a whole. The rejections are the spec's own decisions (D16, D25). -/
def Obligations.ByteStreamFraming : Prop :=
  (∀ ws : List Word, ws ≠ [] → frame (.byteStream (streamBytes ws)) = .words ws) ∧
  (∀ b : Bytes, b ≠ [] → b.length % 4 = 0 → ∃ ws, frame (.byteStream b) = .words ws ∧ streamBytes ws = b) ∧
  frame (.byteStream []) = .error ⟨.emptyInput, .noPayload⟩ ∧
  (∀ b : Bytes, b.length % 4 ≠ 0 → frame (.byteStream b) = .error ⟨.invalidWordLength, .length b.length⟩)

/-- R45: framing a raw bit string inverts its rendering, a string of 32n digits gives n words that render to it, and any other
string is rejected as a whole. R43: the raw form is the words' bit strings with no delimiter, the line form one LF after each. The rejections but the
length rule, and the LF, are the spec's own decisions (D17, D18, D25). -/
def Obligations.BitStringFraming : Prop :=
  (∀ ws : List Word, ws ≠ [] → frame (.bitString (streamBits ws)) = .words ws) ∧
  (∀ t : Bytes, t ≠ [] → t.length % 32 = 0 → (∀ c ∈ t, c = 0x30#8 ∨ c = 0x31#8) →
    ∃ ws, frame (.bitString t) = .words ws ∧ streamBits ws = t) ∧
  frame (.bitString []) = .error ⟨.emptyInput, .noPayload⟩ ∧
  (∀ t : Bytes, t.length % 32 ≠ 0 → frame (.bitString t) = .error ⟨.invalidWordLength, .length t.length⟩) ∧
  (∀ t : Bytes, t ≠ [] → (∃ c ∈ t, c ≠ 0x30#8 ∧ c ≠ 0x31#8) →
    frame (.bitString t) = .error ⟨.invalidWordLength, .length t.length⟩) ∧
  streamBits [] = [] ∧ (∀ w ws, streamBits (w :: ws) = wordBits w ++ streamBits ws) ∧
  streamLines [] = [] ∧ (∀ w ws, streamLines (w :: ws) = wordBits w ++ [0x0A#8] ++ streamLines ws)

/-! ### Batches -/

/-- R48 at the Decoder: as many steps as words waiting answer them all, result `k` being the result of request `k`, and nothing
else changes. That lines and streams wait until all words are answered is the model's choice (DESIGN CHOICE, log 1). -/
def Obligations.DecoderBatchInOrder : Prop :=
  ∀ s : State, s.params.lawful = true →
    steps s.dec.requests.length s =
      .next { s with dec := ⟨[], s.dec.results ++ s.dec.requests.map (decodeText s.params)⟩ }

/-- R48 at the Encoder: with no word waiting, as many steps as lines within `MaxLineLen` answer them all, result `k` being the
result of the `k`-th such line, and nothing else changes; an overlong line stays, delaying no other (R30, R232; log 18). When every
line fits, result `k` is the result of request `k`. An error stops nothing (R208). That streams wait until all lines are
answered is the model's choice (DESIGN CHOICE, log 1). -/
def Obligations.EncoderBatchInOrder : Prop :=
  ∀ s : State, s.params.lawful = true → s.dec.requests = [] →
    steps (s.enc.requests.filter (lineFits s.params)).length s =
      .next { s with enc := ⟨s.enc.requests.filter fun l => !lineFits s.params l,
        s.enc.results ++ (s.enc.requests.filter (lineFits s.params)).map (encodeLine s.params)⟩ } ∧
    (s.Safe → steps s.enc.requests.length s =
      .next { s with enc := ⟨[], s.enc.results ++ s.enc.requests.map (encodeLine s.params)⟩ })

/-- R44, R48: a byte stream of serialised words presented to an idle block is framed and every word decoded in order. That the
framed words go to the Decoder port is the model's reading (log 10). -/
def Obligations.SerialisedStreamDecoded : Prop :=
  ∀ (s : State) (ws : List Word), s.params.lawful = true → s.turn = .idle → ws ≠ [] →
    steps (1 + ws.length) (s.presentStream (.byteStream (streamBytes ws))) =
      .next { s with
        framer := ⟨[], s.framer.results ++ [.words ws]⟩
        dec := ⟨[], s.dec.results ++ ws.map (decodeText s.params)⟩ }

/-- R208: the host's error list pairs each error with its ordinal index, counted from 1 over every result given, blank lines included,
and is in order, at both ports. The base of the count is the spec's own decision (D27). That the count runs on through the
words of several streams is the model's choice (log 11). -/
def Obligations.ErrorsNumberedFromOne : Prop :=
  (∀ (rs : List EncResult) (k : Nat) (e : Err), (k, e) ∈ indexedErrors encError? rs ↔
    0 < k ∧ rs[k - 1]? = some (.error e)) ∧
  (∀ (rs : List DecResult) (k : Nat) (e : Err), (k, e) ∈ indexedErrors decError? rs ↔
    0 < k ∧ rs[k - 1]? = some (.error e)) ∧
  (∀ rs : List EncResult, (indexedErrors encError? rs).Pairwise fun a b => a.1 < b.1) ∧
  (∀ rs : List DecResult, (indexedErrors decError? rs).Pairwise fun a b => a.1 < b.1)

/-- R208, R209: the status is zero exactly when no unit failed, an `Empty` result is no failure, and a batch in which nothing failed
commits, under either policy, every word or text in order. Of a failed batch's output it claims nothing (R209, D20). That a framing error
alone makes the status non-zero, and that a Decoder batch's output is its list of texts, are the model's choice (DESIGN CHOICE,
log 11). -/
def Obligations.CleanBatchCommitted : Prop :=
  ∀ (p : BatchCommit) (es : List EncResult) (fs : List FrameResult) (ds : List DecResult),
    ((encReport p es).status = .zero ↔ ∀ e, .error e ∉ es) ∧
    ((encReport p es).status = .zero → (encReport p es).output = es.filterMap encWord? ∧
      encOutputBytes p es = streamBytes (es.filterMap encWord?)) ∧
    ((decReport p fs ds).status = .zero ↔ (∀ e, .error e ∉ ds) ∧ ∀ e, .error e ∉ fs) ∧
    ((decReport p fs ds).status = .zero → (decReport p fs ds).output.map DecResult.text = ds)
end

