-- ==== Sys2Proof/Laws/Tables.lean ====
section
/-! SUPPORT. What lawful tables give: the lookups are inverse to each other, and every key is spelled by R27. -/

namespace Sys2Proof

theorem allDistinct_iff_nodup {α : Type} [BEq α] [LawfulBEq α] (l : List α) : allDistinct l = true ↔ l.Nodup := by
  induction l with
  | nil => simp [allDistinct]
  | cons a l ih => simp [allDistinct, ih]

/-- In a list of rows with distinct keys, the row found under a key is the row that has it. -/
theorem find_key_iff {α β : Type} [BEq β] [LawfulBEq β] (key : α → β) (l : List α)
    (hd : allDistinct (l.map key) = true) (k : β) (r : α) :
    l.find? (fun a => key a == k) = some r ↔ r ∈ l ∧ key r = k := by
  constructor
  · intro h
    exact ⟨List.mem_of_find?_eq_some h, by simpa using List.find?_some h⟩
  · rintro ⟨hm, hk⟩
    induction l with
    | nil => simp at hm
    | cons a l ih =>
      simp only [List.map_cons, allDistinct, Bool.and_eq_true] at hd
      rw [List.find?_cons]
      rcases List.mem_cons.mp hm with rfl | hm'
      · simp [hk]
      · have hne : (key a == k) = false := by
          rw [beq_eq_false_iff_ne]
          intro h
          have := hd.1
          simp only [Bool.not_eq_true', List.contains_eq_mem, decide_eq_false_iff_not, List.mem_map, not_exists] at this
          exact this r ⟨hm', by rw [hk, h]⟩
        rw [hne]
        exact ih hd.2 hm'

theorem lawful_parts {P : Params} (h : P.lawful = true) : P.lawfulReg = true ∧ P.lawfulR = true ∧ P.lawfulI = true := by
  simp only [Params.lawful, Bool.and_eq_true] at h
  exact ⟨h.1.1, h.1.2, h.2⟩

/-- `RegName` is the inverse of `RegIndex` (R13, R22). -/
theorem regName_iff_regIndex {P : Params} (h : P.lawful = true) (n : Bytes) (r : RegIdx) :
    P.regName r = some n ↔ P.regIndex n = some r := by
  have hl := (lawful_parts h).1
  simp only [Params.lawfulReg, Bool.and_eq_true] at hl
  obtain ⟨⟨⟨⟨⟨⟨⟨⟨⟨⟨-, hn⟩, hi⟩, -⟩, -⟩, -⟩, -⟩, -⟩, -⟩, -⟩, -⟩ := hl
  simp only [Params.regName, Params.regIndex, Option.map_eq_some_iff]
  constructor
  · rintro ⟨a, ha, rfl⟩
    obtain ⟨hm, hk⟩ := (find_key_iff (·.index) _ hi r a).mp ha
    exact ⟨a, (find_key_iff (·.name) _ hn a.name a).mpr ⟨hm, rfl⟩, hk⟩
  · rintro ⟨a, ha, rfl⟩
    obtain ⟨hm, hk⟩ := (find_key_iff (·.name) _ hn n a).mp ha
    exact ⟨a, (find_key_iff (·.index) _ hi a.index a).mpr ⟨hm, rfl⟩, hk⟩

/-- `RByFunct` is the inverse of `RTable` (R13, R24). -/
theorem rByFunct_iff_rFunct {P : Params} (h : P.lawful = true) (m : Bytes) (f : Funct) :
    P.rByFunct f = some m ↔ P.rFunct m = some f := by
  have hl := (lawful_parts h).2.1
  simp only [Params.lawfulR, Bool.and_eq_true] at hl
  obtain ⟨⟨⟨⟨hm, hf⟩, -⟩, -⟩, -⟩ := hl
  simp only [Params.rByFunct, Params.rFunct, Option.map_eq_some_iff]
  constructor
  · rintro ⟨a, ha, rfl⟩
    obtain ⟨hmem, hk⟩ := (find_key_iff (·.funct) _ hf f a).mp ha
    exact ⟨a, (find_key_iff (·.mnemonic) _ hm a.mnemonic a).mpr ⟨hmem, rfl⟩, hk⟩
  · rintro ⟨a, ha, rfl⟩
    obtain ⟨hmem, hk⟩ := (find_key_iff (·.mnemonic) _ hm m a).mp ha
    exact ⟨a, (find_key_iff (·.funct) _ hf a.funct a).mpr ⟨hmem, rfl⟩, hk⟩

/-- `RTable(add) = 32` (R24). -/
theorem rFunct_add {P : Params} (h : P.lawful = true) : P.rFunct kwAdd = some addFunct := by
  have hl := (lawful_parts h).2.1
  simp only [Params.lawfulR, Bool.and_eq_true, beq_iff_eq] at hl
  exact hl.1.1.2

/-- No I-type mnemonic is in `RTable` (R26). -/
theorem rFunct_iMnemonic {P : Params} (h : P.lawful = true) (k : IMnemonic) : P.rFunct k.spelling = none := by
  have hl := (lawful_parts h).2.1
  simp only [Params.lawfulR, Bool.and_eq_true, List.all_eq_true, Option.isNone_iff_eq_none] at hl
  exact hl.1.2 k (by cases k <;> decide)

theorem mem_all (k : IMnemonic) : k ∈ IMnemonic.all := by cases k <;> decide

/-- `IByOp` is the inverse of `ITable` on opcode (R13, R25). -/
theorem iByOp_iff {P : Params} (h : P.lawful = true) (op : Opcode) (k : IMnemonic) :
    P.iByOp op = some k ↔ P.iTable.opcode k = op := by
  have hl := (lawful_parts h).2.2
  simp only [Params.lawfulI, Bool.and_eq_true] at hl
  rw [Params.iByOp, find_key_iff P.iTable.opcode _ hl.1.1]
  exact ⟨fun h => h.2, fun h => ⟨mem_all k, h⟩⟩

/-- An I opcode is never 0 (R25, R62). -/
theorem opcode_ne_zero {P : Params} (h : P.lawful = true) (k : IMnemonic) : P.iTable.opcode k ≠ 0#6 := by
  have hl := (lawful_parts h).2.2
  simp only [Params.lawfulI, Bool.and_eq_true, List.all_eq_true, bne_iff_ne] at hl
  exact hl.1.2 k (mem_all k)

theorem iNamed_iff (m : Bytes) (k : IMnemonic) : iNamed m = some k ↔ k.spelling = m := by
  rw [iNamed, find_key_iff IMnemonic.spelling _ (by decide)]
  exact ⟨fun h => h.2, fun h => ⟨mem_all k, h⟩⟩

/-- `Lookup` finds exactly the `RTable` entry of an R mnemonic (R13, R26). -/
theorem lookup_r_iff (P : Params) (m : Bytes) (f : Funct) : P.lookup m = some (.r f) ↔ P.rFunct m = some f := by
  rw [Params.lookup]
  cases hr : P.rFunct m with
  | none => cases iNamed m <;> simp
  | some g => simp

/-- `Lookup` finds exactly the `ITable` entry of an I mnemonic (R13, R26). -/
theorem lookup_i_iff {P : Params} (h : P.lawful = true) (m : Bytes) (k : IMnemonic) :
    P.lookup m = some (.i k) ↔ m = k.spelling := by
  rw [Params.lookup]
  constructor
  · intro hl
    cases hr : P.rFunct m with
    | some g => simp [hr] at hl
    | none =>
      simp only [hr, Option.map_eq_some_iff, Entry.i.injEq, exists_eq_right] at hl
      exact ((iNamed_iff m k).mp hl).symm
  · rintro rfl
    simp [rFunct_iMnemonic h, (iNamed_iff _ k).mpr rfl]

/-- A token of canonical text: not empty, no whitespace, no comment marker, no `,`, `(` or `)` (R27). -/
theorem spells_iff (P : Params) (key : Bytes) : P.spells key = true ↔ key ≠ [] ∧
    ∀ c ∈ key, P.isWs c = false ∧ c ≠ P.commentChar ∧ c ≠ 0x2C#8 ∧ c ≠ 0x28#8 ∧ c ≠ 0x29#8 := by
  simp [Params.spells, List.isEmpty_eq_false_iff, and_assoc]

theorem spells_of_regIndex {P : Params} (h : P.lawful = true) {n : Bytes} {r : RegIdx} (hn : P.regIndex n = some r) :
    P.spells n = true := by
  have hl := (lawful_parts h).1
  simp only [Params.lawfulReg, Bool.and_eq_true, List.all_eq_true] at hl
  simp only [Params.regIndex, Option.map_eq_some_iff] at hn
  obtain ⟨a, ha, -⟩ := hn
  have := hl.2 a (List.mem_of_find?_eq_some ha)
  have he : a.name = n := by simpa using List.find?_some ha
  rwa [he] at this

theorem spells_of_rFunct {P : Params} (h : P.lawful = true) {m : Bytes} {f : Funct} (hm : P.rFunct m = some f) :
    P.spells m = true := by
  have hl := (lawful_parts h).2.1
  simp only [Params.lawfulR, Bool.and_eq_true, List.all_eq_true] at hl
  simp only [Params.rFunct, Option.map_eq_some_iff] at hm
  obtain ⟨a, ha, -⟩ := hm
  have := hl.2 a (List.mem_of_find?_eq_some ha)
  have he : a.mnemonic = m := by simpa using List.find?_some ha
  rwa [he] at this

theorem spells_iMnemonic {P : Params} (h : P.lawful = true) (k : IMnemonic) : P.spells k.spelling = true := by
  have hl := (lawful_parts h).2.2
  simp only [Params.lawfulI, Bool.and_eq_true, List.all_eq_true] at hl
  exact hl.2 k (mem_all k)

end Sys2Proof
end

