-- ==== Sys2Proof/Laws/Words.lean ====
section
/-! SUPPORT. Fields of composed words, words composed of their fields, and the offset codec. -/

namespace Sys2Proof

theorem opcodeOf_composeR (s t d : RegIdx) (f : Funct) : opcodeOf (composeR s t d f) = 0#6 := by
  apply BitVec.eq_of_getLsbD_eq
  intro i hi
  simp only [opcodeOf, composeR, BitVec.getLsbD_extractLsb', BitVec.getLsbD_append]
  interval_cases i <;> simp

theorem sourceOf_composeR (s t d : RegIdx) (f : Funct) : sourceOf (composeR s t d f) = s := by
  apply BitVec.eq_of_getLsbD_eq
  intro i hi
  simp only [sourceOf, composeR, BitVec.getLsbD_extractLsb', BitVec.getLsbD_append]
  interval_cases i <;> simp

theorem targetOf_composeR (s t d : RegIdx) (f : Funct) : targetOf (composeR s t d f) = t := by
  apply BitVec.eq_of_getLsbD_eq
  intro i hi
  simp only [targetOf, composeR, BitVec.getLsbD_extractLsb', BitVec.getLsbD_append]
  interval_cases i <;> simp

theorem destOf_composeR (s t d : RegIdx) (f : Funct) : destOf (composeR s t d f) = d := by
  apply BitVec.eq_of_getLsbD_eq
  intro i hi
  simp only [destOf, composeR, BitVec.getLsbD_extractLsb', BitVec.getLsbD_append]
  interval_cases i <;> simp

theorem shamtOf_composeR (s t d : RegIdx) (f : Funct) : shamtOf (composeR s t d f) = 0#5 := by
  apply BitVec.eq_of_getLsbD_eq
  intro i hi
  simp only [shamtOf, composeR, BitVec.getLsbD_extractLsb', BitVec.getLsbD_append]
  interval_cases i <;> simp

theorem functOf_composeR (s t d : RegIdx) (f : Funct) : functOf (composeR s t d f) = f := by
  apply BitVec.eq_of_getLsbD_eq
  intro i hi
  simp only [functOf, composeR, BitVec.getLsbD_extractLsb', BitVec.getLsbD_append]
  interval_cases i <;> simp

theorem opcodeOf_composeI (o : Opcode) (s t : RegIdx) (x : Int) : opcodeOf (composeI o s t x) = o := by
  apply BitVec.eq_of_getLsbD_eq
  intro i hi
  simp only [opcodeOf, composeI, BitVec.getLsbD_extractLsb', BitVec.getLsbD_append]
  interval_cases i <;> simp

theorem sourceOf_composeI (o : Opcode) (s t : RegIdx) (x : Int) : sourceOf (composeI o s t x) = s := by
  apply BitVec.eq_of_getLsbD_eq
  intro i hi
  simp only [sourceOf, composeI, BitVec.getLsbD_extractLsb', BitVec.getLsbD_append]
  interval_cases i <;> simp

theorem targetOf_composeI (o : Opcode) (s t : RegIdx) (x : Int) : targetOf (composeI o s t x) = t := by
  apply BitVec.eq_of_getLsbD_eq
  intro i hi
  simp only [targetOf, composeI, BitVec.getLsbD_extractLsb', BitVec.getLsbD_append]
  interval_cases i <;> simp

theorem offsetOf_composeI (o : Opcode) (s t : RegIdx) (x : Int) : offsetOf (composeI o s t x) = lo16 x := by
  apply BitVec.eq_of_getLsbD_eq
  intro i hi
  simp only [offsetOf, composeI, BitVec.getLsbD_extractLsb', BitVec.getLsbD_append]
  simp [hi]

/-- The fields of an R word compose to it with the shift amount cleared. -/
theorem composeR_of_fields (w : Word) (h : opcodeOf w = 0#6) :
    composeR (sourceOf w) (targetOf w) (destOf w) (functOf w) = w &&& 0xFFFFF83F#32 := by
  have hb : ∀ i, i < 6 → w.getLsbD (26 + i) = false := by
    intro i hi
    have := congrArg (fun b => b.getLsbD i) h
    simpa [opcodeOf, hi] using this
  have h0 := hb 0 (by decide); have h1 := hb 1 (by decide); have h2 := hb 2 (by decide)
  have h3 := hb 3 (by decide); have h4 := hb 4 (by decide); have h5 := hb 5 (by decide)
  apply BitVec.eq_of_getLsbD_eq
  intro i hi
  simp only [composeR, sourceOf, targetOf, destOf, functOf, BitVec.getLsbD_append, BitVec.getLsbD_extractLsb',
    BitVec.getLsbD_and]
  interval_cases i <;> simp_all

/-- Clearing the shift amount is the identity exactly on the words whose shift amount is 0. -/
theorem clear_shamt_eq_self (w : Word) : w &&& 0xFFFFF83F#32 = w ↔ shamtOf w = 0#5 := by
  constructor
  · intro h
    apply BitVec.eq_of_getLsbD_eq
    intro i hi
    have := congrArg (fun b => b.getLsbD (6 + i)) h
    simp only [BitVec.getLsbD_and] at this
    simp only [shamtOf, BitVec.getLsbD_extractLsb']
    interval_cases i <;> simp_all
  · intro h
    have hb : ∀ i, i < 5 → w.getLsbD (6 + i) = false := by
      intro i hi
      have := congrArg (fun b => b.getLsbD i) h
      simpa [shamtOf, hi] using this
    have h0 := hb 0 (by decide); have h1 := hb 1 (by decide); have h2 := hb 2 (by decide)
    have h3 := hb 3 (by decide); have h4 := hb 4 (by decide)
    apply BitVec.eq_of_getLsbD_eq
    intro i hi
    simp only [BitVec.getLsbD_and]
    interval_cases i <;> simp_all

theorem sext16_eq_toInt (f : BitVec 16) : sext16 f = f.toInt := by
  simp only [sext16, BitVec.msb_eq_decide, BitVec.toInt_eq_toNat_cond]
  have := f.isLt
  split <;> split <;> simp_all <;> omega

theorem lo16_sext16 (f : BitVec 16) : lo16 (sext16 f) = f := by
  rw [sext16_eq_toInt, lo16, BitVec.ofInt_toInt]

theorem sext16_lo16 {x : Int} (h : OffsetInRange x) : sext16 (lo16 x) = x := by
  obtain ⟨h1, h2⟩ := h
  rw [sext16_eq_toInt, lo16, BitVec.toInt_ofInt]
  exact Int.bmod_eq_of_le (by omega) (by omega)

theorem sext16_inRange (f : BitVec 16) : OffsetInRange (sext16 f) := by
  rw [sext16_eq_toInt]
  have h1 := BitVec.le_toInt f
  have h2 := BitVec.toInt_lt (x := f)
  constructor <;> omega

/-- The fields of an I word compose to it. -/
theorem composeI_of_fields (w : Word) :
    composeI (opcodeOf w) (sourceOf w) (targetOf w) (sext16 (offsetOf w)) = w := by
  apply BitVec.eq_of_getLsbD_eq
  intro i hi
  simp only [composeI, opcodeOf, sourceOf, targetOf, lo16_sext16, offsetOf, BitVec.getLsbD_append,
    BitVec.getLsbD_extractLsb']
  interval_cases i <;> simp

/-- `lo16` as a number: the integer itself, or with 65536 added when it is negative (R66). -/
theorem lo16_toNat {x : Int} (h : OffsetInRange x) : ((lo16 x).toNat : Int) = if 0 ≤ x then x else x + 65536 := by
  obtain ⟨h1, h2⟩ := h
  simp only [lo16, BitVec.toNat_ofInt]
  split <;> omega

end Sys2Proof
end

