-- ==== Sys2Proof/Laws/Codec.lean ====
section
/-! SUPPORT. What the word decoder and the encoder give on composed words and on the two item builders. -/

namespace Sys2Proof

theorem decodeWord_composeR {P : Params} {f : Funct} {m : Bytes} (h : P.rByFunct f = some m) (s t d : RegIdx) :
    decodeWord P (composeR s t d f) = .ok (rItem m f d s t) := by
  simp [decodeWord, opcodeOf_composeR, functOf_composeR, destOf_composeR, sourceOf_composeR, targetOf_composeR, h]

theorem decodeWord_composeI {P : Params} (hP : P.lawful = true) (k : IMnemonic) (s t : RegIdx) {x : Int}
    (hx : OffsetInRange x) :
    decodeWord P (composeI (P.iTable.opcode k) s t x) = .ok (.instr (iInstr k s t x)) := by
  have h0 : opcodeOf (composeI (P.iTable.opcode k) s t x) ≠ 0#6 := by
    rw [opcodeOf_composeI]
    exact opcode_ne_zero hP k
  rw [decodeWord, if_neg h0, opcodeOf_composeI, (iByOp_iff hP _ k).mpr rfl]
  simp only [sourceOf_composeI, targetOf_composeI, offsetOf_composeI, sext16_lo16 hx]

theorem encode_iInstr (P : Params) (k : IMnemonic) (s t : RegIdx) (x : Int) :
    encode P (iInstr k s t x) = composeI (P.iTable.opcode k) s t x := by
  cases k <;> rfl

theorem offset_iInstr (k : IMnemonic) (s t : RegIdx) (x : Int) : (iInstr k s t x).offset? = some x := by
  cases k <;> rfl

/-- The word of an R row holds the row's own function code, `add` included. -/
theorem encodeItem_rItem {P : Params} (hP : P.lawful = true) {m : Bytes} {f : Funct} (hm : P.rFunct m = some f)
    (d s t : RegIdx) : encodeItem P (rItem m f d s t) = composeR s t d f := by
  rw [rItem]
  split
  · subst m
    have : f = addFunct := by simpa [rFunct_add hP] using hm.symm
    subst this
    rfl
  · rfl

/-- An R row is printed with the row's own name, `add` included. -/
theorem renderItem_rItem (P : Params) (m : Bytes) (f : Funct) (d s t : RegIdx) :
    renderItem P (rItem m f d s t) = renderR P m d s t := by
  rw [rItem]
  split
  · subst m
    rfl
  · rfl

theorem renderInstr_memory {k : IMnemonic} (h : k.shape = .memory) (P : Params) (s t : RegIdx) (x : Int) :
    renderInstr P (iInstr k s t x) = renderMem P k.spelling t x s := by
  cases k <;> first | rfl | cases h

theorem renderInstr_branch {k : IMnemonic} (h : k.shape = .branch) (P : Params) (s t : RegIdx) (x : Int) :
    renderInstr P (iInstr k s t x) = renderBranch P k.spelling s t x := by
  cases k <;> first | rfl | cases h

theorem nameOf_of_regIndex {P : Params} (hP : P.lawful = true) {n : Bytes} {r : RegIdx} (h : P.regIndex n = some r) :
    nameOf P r = .ok n := by
  rw [nameOf, (regName_iff_regIndex hP n r).mpr h]

/-- A register field with no name is reported by its index (R147). -/
theorem nameOf_error {P : Params} {r : RegIdx} {e : Err} (h : nameOf P r = .error e) : e = unknownRegField r := by
  rw [nameOf] at h
  split at h
  · cases h
  · cases h
    rfl

end Sys2Proof
end

