-- ==== Sys2Proof/Laws/Framing.lean ====
section
/-! SUPPORT. Words against their bytes and their bit strings, one word at a time. -/

namespace Sys2Proof

theorem streamBytes_length (ws : List Word) : (streamBytes ws).length = 4 * ws.length := by
  induction ws with
  | nil => rfl
  | cons w r ih => simp [streamBytes, wordBytes] at ih ⊢; omega

/-- Four bytes, most significant first, are the word they came from. -/
theorem append_wordBytes (w : Word) :
    (w.extractLsb' 24 8 ++ w.extractLsb' 16 8 ++ w.extractLsb' 8 8 ++ w.extractLsb' 0 8 : Word) = w := by
  apply BitVec.eq_of_getLsbD_eq
  intro i hi
  simp only [BitVec.getLsbD_append, BitVec.getLsbD_extractLsb']
  interval_cases i <;> simp

/-- The bytes of four bytes put together are those bytes. -/
theorem wordBytes_append (a b c d : Byte) : wordBytes (a ++ b ++ c ++ d) = [a, b, c, d] := by
  have h3 : (a ++ b ++ c ++ d : Word).extractLsb' 24 8 = a := by
    apply BitVec.eq_of_getLsbD_eq
    intro i hi
    simp only [BitVec.getLsbD_append, BitVec.getLsbD_extractLsb']
    interval_cases i <;> simp
  have h2 : (a ++ b ++ c ++ d : Word).extractLsb' 16 8 = b := by
    apply BitVec.eq_of_getLsbD_eq
    intro i hi
    simp only [BitVec.getLsbD_append, BitVec.getLsbD_extractLsb']
    interval_cases i <;> simp
  have h1 : (a ++ b ++ c ++ d : Word).extractLsb' 8 8 = c := by
    apply BitVec.eq_of_getLsbD_eq
    intro i hi
    simp only [BitVec.getLsbD_append, BitVec.getLsbD_extractLsb']
    interval_cases i <;> simp
  have h0 : (a ++ b ++ c ++ d : Word).extractLsb' 0 8 = d := by
    apply BitVec.eq_of_getLsbD_eq
    intro i hi
    simp only [BitVec.getLsbD_append, BitVec.getLsbD_extractLsb']
    interval_cases i <;> simp
  rw [wordBytes, h3, h2, h1, h0]

theorem wordBits_length (w : Word) : (wordBits w).length = 32 := by
  simp [wordBits]

theorem bitsValue_concat (a : Bytes) (c : Byte) :
    bitsValue (a ++ [c]) = 2 * bitsValue a + (if c = 0x31#8 then 1 else 0) := by
  simp [bitsValue]

/-- The first `n` digits of a word's bit string are its high `n` bits. -/
theorem bitsValue_take_wordBits (w : Word) (n : Nat) (hn : n ≤ 32) :
    bitsValue ((wordBits w).take n) = w.toNat / 2 ^ (32 - n) := by
  induction n with
  | zero =>
    have := w.isLt
    simp only [List.take_zero]
    rw [Nat.div_eq_of_lt (by simpa using this)]
    rfl
  | succ n ih =>
    have hl : n < (wordBits w).length := by rw [wordBits_length]; omega
    have hd : (wordBits w)[n] = if w.getLsbD (31 - n) then 0x31#8 else 0x30#8 := by simp [wordBits]
    have e1 : 32 - n = (31 - n) + 1 := by omega
    have e2 : 32 - (n + 1) = 31 - n := by omega
    have hb : w.getLsbD (31 - n) = decide (w.toNat / 2 ^ (31 - n) % 2 = 1) := by
      rw [BitVec.getLsbD, Nat.testBit_eq_decide_div_mod_eq]
    rw [List.take_succ_eq_append_getElem hl, bitsValue_concat, ih (by omega), hd, e1, e2, Nat.pow_succ,
      ← Nat.div_div_eq_div_mul, hb]
    generalize w.toNat / 2 ^ (31 - n) = q
    by_cases h : q % 2 = 1
    · simp [h]; omega
    · simp [h]; omega

/-- A word's bit string has the word as its value (R42, R45). -/
theorem bitsValue_wordBits (w : Word) : BitVec.ofNat 32 (bitsValue (wordBits w)) = w := by
  have := bitsValue_take_wordBits w 32 (Nat.le_refl _)
  rw [List.take_of_length_le (by rw [wordBits_length])] at this
  rw [this]
  simp

/-- A digit of a bit string is the bit of its value at the same place from the left. -/
theorem testBit_bitsValue (t : Bytes) :
    ∀ n ≤ t.length, ∀ i < n, (bitsValue (t.take n)).testBit (n - 1 - i) = decide (t[i]? = some 0x31#8) := by
  intro n
  induction n with
  | zero => intro _ i hi; omega
  | succ n ih =>
    intro h i hi
    have hlt : n < t.length := by omega
    rw [List.take_succ_eq_append_getElem hlt, bitsValue_concat]
    by_cases hin : i = n
    · subst hin
      have : i + 1 - 1 - i = 0 := by omega
      rw [this, Nat.testBit_zero, List.getElem?_eq_getElem hlt]
      by_cases hc : t[i] = 0x31#8
      · rw [if_pos hc, hc]; simp
      · rw [if_neg hc]; simp [hc]
    · have e : n + 1 - 1 - i = (n - 1 - i) + 1 := by omega
      rw [e, Nat.testBit_succ, ← ih (by omega) i (by omega)]
      congr 1
      split <;> omega

/-- 32 binary digits are the bit string of their value (R42, R45). -/
theorem wordBits_bitsValue (t : Bytes) (hl : t.length = 32) (hd : ∀ c ∈ t, c = 0x30#8 ∨ c = 0x31#8) :
    wordBits (BitVec.ofNat 32 (bitsValue t)) = t := by
  have hk := testBit_bitsValue t 32 (by omega)
  rw [List.take_of_length_le (by omega)] at hk
  apply List.ext_getElem
  · rw [wordBits_length, hl]
  · intro i h1 h2
    have hi : i < 32 := by rw [wordBits_length] at h1; exact h1
    have e : 31 - i = 32 - 1 - i := by omega
    have hb : (BitVec.ofNat 32 (bitsValue t)).getLsbD (31 - i) = decide (t[i] = 0x31#8) := by
      rw [BitVec.getLsbD_ofNat, e, hk i hi, List.getElem?_eq_getElem h2]
      simp; omega
    simp only [wordBits, List.getElem_map, List.getElem_range]
    rw [hb]
    rcases hd t[i] (List.getElem_mem h2) with h | h <;> simp [h]

end Sys2Proof
end

