-- ==== Sys2Proof/Laws/Text.lean ====
section
/-! SUPPORT. The line and operand primitives on the texts they are given: trailing bytes, tokens, separators, the memory operand
and decimal numbers. -/

namespace Sys2Proof

/-! ### Trailing bytes and trimming -/

theorem dropTrailing_append_replicate (p : Byte → Bool) (s : Bytes) :
    ∃ b, s = dropTrailing p s ++ b ∧ ∀ c ∈ b, p c = true := by
  refine ⟨(s.reverse.takeWhile p).reverse, ?_, ?_⟩
  · have := congrArg List.reverse (List.takeWhile_append_dropWhile (p := p) (l := s.reverse))
    rw [List.reverse_append, List.reverse_reverse] at this
    exact this.symm
  · intro c hc
    rw [List.mem_reverse] at hc
    exact List.mem_takeWhile_imp hc

theorem dropTrailing_last (p : Byte → Bool) (s : Bytes) : ∀ c ∈ (dropTrailing p s).getLast?, p c = false := by
  intro c hc
  rw [dropTrailing, List.getLast?_reverse] at hc
  have := List.head?_dropWhile_not p s.reverse
  rw [Option.mem_def] at hc
  rw [hc] at this
  simpa using this

theorem dropTrailing_of_last {p : Byte → Bool} {s : Bytes} (h : ∀ c ∈ s.getLast?, p c = false) : dropTrailing p s = s := by
  rw [dropTrailing]
  have : s.reverse.dropWhile p = s.reverse := by
    cases hr : s.reverse with
    | nil => rfl
    | cons a l =>
      have ha : a ∈ s.getLast? := by
        rw [← List.head?_reverse, hr]; rfl
      simp [h a ha]
  rw [this, List.reverse_reverse]

theorem dropTrailing_append {p : Byte → Bool} {s b : Bytes} (hs : ∀ c ∈ s.getLast?, p c = false)
    (hb : ∀ c ∈ b, p c = true) : dropTrailing p (s ++ b) = s := by
  have : dropTrailing p (s ++ b) = dropTrailing p s := by
    rw [dropTrailing, List.reverse_append, List.dropWhile_append_of_pos, dropTrailing]
    intro c hc
    exact hb c (List.mem_reverse.mp hc)
  rw [this, dropTrailing_of_last hs]

/-- A line that starts and ends with non-whitespace and holds no comment marker is already prepared. -/
theorem prepare_of_clean {P : Params} {s : Bytes} (hc : ∀ c ∈ s, c ≠ P.commentChar)
    (hh : ∀ c ∈ s.head?, P.isWs c = false) (hl : ∀ c ∈ s.getLast?, P.isWs c = false) : prepare P s = s := by
  have h1 : stripComment P s = s := by
    rw [stripComment, List.takeWhile_eq_self_iff]
    intro c hcs
    simpa using hc c hcs
  rw [prepare, h1, trim]
  have h2 : s.dropWhile P.isWs = s := by
    cases s with
    | nil => rfl
    | cons a l => simp [hh a (by simp)]
  rw [h2, dropTrailing_of_last hl]

/-! ### Tokens (R104) -/

theorem tokensFrom_run {P : Params} {run : Bytes} (h : ∀ c ∈ run, P.isWs c = false) (cur rest : Bytes) :
    tokensFrom P cur (run ++ rest) = tokensFrom P (cur ++ run) rest := by
  induction run generalizing cur with
  | nil => simp
  | cons c run ih =>
    have hc := h c (by simp)
    simp only [List.cons_append, tokensFrom, hc, Bool.false_eq_true, if_false]
    rw [ih (fun d hd => h d (by simp [hd]))]
    simp

theorem tokens_run_ws {P : Params} {run : Bytes} {c : Byte} (hne : run ≠ []) (h : ∀ d ∈ run, P.isWs d = false)
    (hc : P.isWs c = true) (rest : Bytes) : tokens P (run ++ c :: rest) = run :: tokens P rest := by
  rw [tokens, tokensFrom_run h, List.nil_append, tokensFrom, if_pos hc, token, if_neg hne]
  rfl

theorem tokens_run {P : Params} {run : Bytes} (hne : run ≠ []) (h : ∀ d ∈ run, P.isWs d = false) :
    tokens P run = [run] := by
  have := tokensFrom_run h [] []
  rw [List.append_nil, List.nil_append] at this
  rw [tokens, this, tokensFrom, token, if_neg hne]

theorem tokens_ws {P : Params} {c : Byte} (hc : P.isWs c = true) (rest : Bytes) :
    tokens P (c :: rest) = tokens P rest := by
  simp [tokens, tokensFrom, hc, token]

/-- Every token is a non-empty run of non-whitespace bytes. -/
theorem mem_tokensFrom {P : Params} (s : Bytes) : ∀ cur : Bytes, (∀ c ∈ cur, P.isWs c = false) →
    ∀ t ∈ tokensFrom P cur s, t ≠ [] ∧ ∀ c ∈ t, P.isWs c = false := by
  induction s with
  | nil =>
    intro cur hcur t ht
    rw [tokensFrom, token] at ht
    split at ht
    · simp at ht
    · simp only [List.mem_singleton] at ht
      subst ht
      exact ⟨‹_›, hcur⟩
  | cons c s ih =>
    intro cur hcur t ht
    rw [tokensFrom] at ht
    split at ht
    · rcases List.mem_append.mp ht with h | h
      · rw [token] at h
        split at h
        · simp at h
        · simp only [List.mem_singleton] at h
          subst h
          exact ⟨‹_›, hcur⟩
      · exact ih [] (by simp) t h
    · refine ih (cur ++ [c]) ?_ t ht
      intro d hd
      rcases List.mem_append.mp hd with h | h
      · exact hcur d h
      · simp only [List.mem_singleton] at h
        subst h
        simpa using ‹¬ P.isWs _ = true›

/-- The tokens of a prepared line are none exactly when it is empty. -/
theorem tokens_eq_nil_of_prepare {P : Params} {s : Bytes} (hh : ∀ c ∈ s.head?, P.isWs c = false) :
    tokens P s = [] ↔ s = [] := by
  constructor
  · intro h
    cases s with
    | nil => rfl
    | cons c rest =>
      have hc := hh c (by simp)
      exfalso
      have key : ∀ (r cur : Bytes), cur ≠ [] → tokensFrom P cur r ≠ [] := by
        intro r
        induction r with
        | nil => intro cur hcur; simp [tokensFrom, token, hcur]
        | cons d r ih =>
          intro cur hcur
          rw [tokensFrom]
          split
          · simp [token, hcur]
          · exact ih _ (by simp)
      rw [tokens, tokensFrom, hc] at h
      simp only [Bool.false_eq_true, if_false, List.nil_append] at h
      exact key rest [c] (by simp) h
  · rintro rfl
    rfl

/-! ### Separators (R106) -/

theorem stripSep_of_last {t : Bytes} (h : t.getLast? ≠ some 0x2C#8) : stripSep t = t := by
  apply dropTrailing_of_last
  intro c hc
  rw [Option.mem_def] at hc
  simp only [beq_eq_false_iff_ne]
  rintro rfl
  exact h hc

theorem stripSep_comma {t : Bytes} (h : t.getLast? ≠ some 0x2C#8) : stripSep (t ++ [0x2C#8]) = t := by
  apply dropTrailing_append
  · intro c hc
    rw [Option.mem_def] at hc
    simp only [beq_eq_false_iff_ne]
    rintro rfl
    exact h hc
  · simp

theorem last_ne_comma_of_not_mem {t : Bytes} (h : ∀ c ∈ t, c ≠ 0x2C#8) : t.getLast? ≠ some 0x2C#8 :=
  fun hl => h _ (List.mem_of_getLast? hl) rfl

/-! ### Numbers (R108, R144) -/

theorem digit_isDigit (n : Nat) : isDigit (digit n) = true := by
  have : n % 10 < 10 := Nat.mod_lt _ (by decide)
  simp only [isDigit, digit, BitVec.toNat_ofNat, Bool.and_eq_true, decide_eq_true_eq]
  omega

theorem digit_value (n : Nat) : (digit n).toNat - 0x30 = n % 10 := by
  have : n % 10 < 10 := Nat.mod_lt _ (by decide)
  simp only [digit, BitVec.toNat_ofNat]
  omega

theorem natText_ne_nil (fuel n : Nat) : natText fuel n ≠ [] := by
  cases fuel with
  | zero => simp [natText]
  | succ k => rw [natText]; split <;> simp

theorem natText_digits (fuel n : Nat) : ∀ c ∈ natText fuel n, isDigit c = true := by
  induction fuel generalizing n with
  | zero => simp [natText, digit_isDigit]
  | succ k ih =>
    rw [natText]
    split
    · simp [digit_isDigit]
    · intro c hc
      rcases List.mem_append.mp hc with h | h
      · exact ih _ c h
      · simp only [List.mem_singleton] at h
        subst h
        exact digit_isDigit n

theorem natText_value (fuel n : Nat) (h : n ≤ fuel) :
    (natText fuel n).foldl (fun n c => 10 * n + (c.toNat - 0x30)) 0 = n := by
  induction fuel generalizing n with
  | zero =>
    obtain rfl : n = 0 := by omega
    decide
  | succ k ih =>
    rw [natText]
    split
    · simp only [List.foldl_cons, List.foldl_nil, digit_value]
      omega
    · rw [List.foldl_append, ih (n / 10) (by omega)]
      simp only [List.foldl_cons, List.foldl_nil, digit_value]
      omega

/-- No leading zero: only the number 0 starts with the digit `0`. -/
theorem natText_head (fuel n : Nat) (h : n ≤ fuel) (hh : (natText fuel n).head? = some 0x30#8) : n = 0 := by
  induction fuel generalizing n with
  | zero => omega
  | succ k ih =>
    rw [natText] at hh
    split at hh
    · rename_i hlt
      simp only [List.head?_cons, Option.some.injEq] at hh
      have hv := digit_value n
      rw [hh] at hv
      have : (0x30#8 : Byte).toNat - 0x30 = 0 := rfl
      omega
    · rename_i hge
      rw [List.head?_append_of_ne_nil _ (natText_ne_nil _ _)] at hh
      have := ih (n / 10) (by omega) hh
      omega

theorem digitsValue_natText (n : Nat) : digitsValue (natText n n) = some n := by
  rw [digitsValue, if_pos, natText_value n n (Nat.le_refl n)]
  simp only [Bool.and_eq_true, Bool.not_eq_true', List.isEmpty_eq_false_iff, List.all_eq_true]
  exact ⟨natText_ne_nil n n, natText_digits n n⟩

theorem isDigit_ne {c : Byte} (h : isDigit c = true) : c ≠ 0x2B#8 ∧ c ≠ 0x2D#8 ∧ c ≠ 0x28#8 ∧ c ≠ 0x29#8 ∧ c ≠ 0x2C#8 := by
  simp only [isDigit, Bool.and_eq_true, decide_eq_true_eq] at h
  refine ⟨?_, ?_, ?_, ?_, ?_⟩ <;> rintro rfl <;> simp at h

/-- The sign grammar on a digit string: itself, and after `+` or `-`. -/
theorem offsetValue_of_digits {ds : Bytes} {n : Nat} (h : digitsValue ds = some n) :
    offsetValue ds = some (n : Int) ∧ offsetValue (0x2B#8 :: ds) = some (n : Int) ∧
      offsetValue (0x2D#8 :: ds) = some (-(n : Int)) := by
  refine ⟨?_, ?_, ?_⟩
  · cases ds with
    | nil => simp [digitsValue] at h
    | cons c rest =>
      have hd : isDigit c = true := by
        simp only [digitsValue] at h
        split at h
        · rename_i hc
          simp only [Bool.and_eq_true, List.all_eq_true] at hc
          exact hc.2 c (by simp)
        · simp at h
      obtain ⟨h1, h2, -⟩ := isDigit_ne hd
      simp only [offsetValue, h1, h2, if_false, h, Option.map_some]
  · simp [offsetValue, h]
  · simp [offsetValue, h]

/-- Decimal rendering reads back (R108, R144). -/
theorem offsetValue_decText (x : Int) : offsetValue (decText x) = some x := by
  have h := offsetValue_of_digits (digitsValue_natText x.natAbs)
  rw [decText]
  split
  · rw [h.2.2]
    congr 1
    omega
  · rw [h.1]
    congr 1
    omega

theorem parseOffset_decText {x : Int} (h : OffsetInRange x) : parseOffset (decText x) = .ok x := by
  rw [parseOffset, offsetValue_decText]
  simp [h]

theorem decText_mem {x : Int} {c : Byte} (h : c ∈ decText x) : c = 0x2D#8 ∨ isDigit c = true := by
  rw [decText] at h
  split at h
  · rcases List.mem_cons.mp h with h | h
    · exact .inl h
    · exact .inr (natText_digits _ _ c h)
  · exact .inr (natText_digits _ _ c h)

theorem decText_ne_nil (x : Int) : decText x ≠ [] := by
  rw [decText]
  split
  · simp
  · exact natText_ne_nil _ _

/-! ### Canonical text under `plainText` -/

theorem plainText_space {P : Params} (h : P.plainText = true) : P.isWs 0x20#8 = true ∧ P.commentChar ≠ 0x20#8 := by
  simp only [Params.plainText, Bool.and_eq_true, bne_iff_ne] at h
  exact h.1

theorem plainText_mark {P : Params} (h : P.plainText = true) {c : Byte}
    (hc : c = 0x2C#8 ∨ c = 0x28#8 ∨ c = 0x29#8 ∨ c = 0x2D#8 ∨ isDigit c = true) : P.isWs c = false ∧ c ≠ P.commentChar := by
  simp only [Params.plainText, Bool.and_eq_true, List.all_eq_true, Bool.not_eq_true', bne_iff_ne] at h
  apply h.2
  rcases hc with rfl | rfl | rfl | rfl | hd
  · decide
  · decide
  · decide
  · decide
  · simp only [isDigit, Bool.and_eq_true, decide_eq_true_eq] at hd
    have hn : ∀ m : Nat, c.toNat = m → c = BitVec.ofNat 8 m := by
      intro m hm
      rw [← hm, BitVec.ofNat_toNat, BitVec.setWidth_eq]
    have hcase : c.toNat = 48 ∨ c.toNat = 49 ∨ c.toNat = 50 ∨ c.toNat = 51 ∨ c.toNat = 52 ∨ c.toNat = 53 ∨
      c.toNat = 54 ∨ c.toNat = 55 ∨ c.toNat = 56 ∨ c.toNat = 57 := by omega
    rcases hcase with h | h | h | h | h | h | h | h | h | h <;> rw [hn _ h] <;> decide

theorem decText_plain {P : Params} (h : P.plainText = true) {x : Int} {c : Byte} (hc : c ∈ decText x) :
    P.isWs c = false ∧ c ≠ P.commentChar := by
  apply plainText_mark h
  rcases decText_mem hc with rfl | hd
  · simp
  · simp [hd]

/-! ### The memory operand (R110) -/

/-- A text that is split in front of the first `c`. -/
theorem take_idxOf_append {a b : Bytes} {c : Byte} (h : c ∉ a) :
    (a ++ c :: b).idxOf c = a.length := by
  rw [List.idxOf_append_of_notMem h, List.idxOf_cons_self, Nat.add_zero]

theorem splitMem_of_form {line ot bt : Bytes} (ho : 0x28#8 ∉ ot ∧ 0x29#8 ∉ ot) (hb : 0x28#8 ∉ bt ∧ 0x29#8 ∉ bt) :
    splitMem line (ot ++ [0x28#8] ++ bt ++ [0x29#8]) = .ok (ot, bt) := by
  have e1 : (ot ++ [0x28#8] ++ bt ++ [0x29#8]).idxOf 0x28#8 = ot.length := by
    have : ot ++ [0x28#8] ++ bt ++ [0x29#8] = ot ++ 0x28#8 :: (bt ++ [0x29#8]) := by simp
    rw [this, take_idxOf_append ho.1]
  have e2 : (ot ++ [0x28#8] ++ bt ++ [0x29#8]).idxOf 0x29#8 = (ot ++ [0x28#8] ++ bt).length := by
    have : ot ++ [0x28#8] ++ bt ++ [0x29#8] = (ot ++ [0x28#8] ++ bt) ++ 0x29#8 :: [] := by simp
    rw [this, take_idxOf_append]
    simp [ho.2, hb.2]
  have c1 : (ot ++ [0x28#8] ++ bt ++ [0x29#8]).count 0x28#8 = 1 := by
    simp [List.count_append, List.count_eq_zero_of_not_mem ho.1, List.count_eq_zero_of_not_mem hb.1]
  have c2 : (ot ++ [0x28#8] ++ bt ++ [0x29#8]).count 0x29#8 = 1 := by
    simp [List.count_append, List.count_eq_zero_of_not_mem ho.2, List.count_eq_zero_of_not_mem hb.2]
  have t1 : (ot ++ [0x28#8] ++ bt ++ [0x29#8]).take (ot ++ [0x28#8] ++ bt).length = ot ++ [0x28#8] ++ bt :=
    List.take_left
  have t2 : (ot ++ [0x28#8] ++ bt).drop (ot.length + 1) = bt := by
    have : ot.length + 1 = (ot ++ [0x28#8]).length := by simp
    rw [this, List.drop_left]
  have t3 : (ot ++ [0x28#8] ++ bt ++ [0x29#8]).take ot.length = ot := by
    rw [List.append_assoc, List.append_assoc, List.take_left]
  rw [splitMem, c1, c2, e1, e2, t1, t2, t3]
  simp

/-- What `splitMem` accepts (R110): a text, `(`, a text and `)`, neither holding a parenthesis. -/
theorem splitMem_ok {line t ot bt : Bytes} (h : splitMem line t = .ok (ot, bt)) :
    t = ot ++ [0x28#8] ++ bt ++ [0x29#8] ∧ (0x28#8 ∉ ot ∧ 0x29#8 ∉ ot) ∧ (0x28#8 ∉ bt ∧ 0x29#8 ∉ bt) := by
  rw [splitMem] at h
  split at h
  · cases h
  split at h
  · cases h
  rename_i hc hp
  simp only [not_or, not_not, Nat.not_lt] at hc hp
  obtain ⟨c1, c2⟩ := hc
  obtain ⟨hlast, hle⟩ := hp
  have m1 : 0x28#8 ∈ t := List.count_pos_iff.mp (by omega)
  have m2 : 0x29#8 ∈ t := List.count_pos_iff.mp (by omega)
  obtain ⟨a, b, rfl, ha⟩ := List.eq_append_cons_of_mem m1
  have hb : 0x28#8 ∉ b := by
    intro hm
    have := List.count_pos_iff.mpr hm
    rw [List.count_append, List.count_cons_self] at c1
    omega
  rw [take_idxOf_append ha] at hle
  have ha' : 0x29#8 ∉ a := by
    intro hm
    rw [List.idxOf_append_of_mem hm] at hle
    have := List.idxOf_lt_length_iff.mpr hm
    omega
  have mb : 0x29#8 ∈ b := by
    rcases List.mem_append.mp m2 with hm | hm
    · exact absurd hm ha'
    · rcases List.mem_cons.mp hm with hm | hm
      · exact absurd hm (by decide)
      · exact hm
  obtain ⟨c, d, rfl, hc⟩ := List.eq_append_cons_of_mem mb
  have hidx : (a ++ 0x28#8 :: (c ++ 0x29#8 :: d)).idxOf 0x29#8 = a.length + 1 + c.length := by
    have e : a ++ 0x28#8 :: (c ++ 0x29#8 :: d) = (a ++ 0x28#8 :: c) ++ 0x29#8 :: d := by simp
    rw [e, take_idxOf_append]
    · simp only [List.length_append, List.length_cons]; omega
    · simp [ha', hc]
  rw [hidx] at hlast
  simp only [List.length_append, List.length_cons] at hlast
  obtain rfl : d = [] := List.eq_nil_of_length_eq_zero (by omega)
  have e : a ++ 0x28#8 :: (c ++ [0x29#8]) = a ++ [0x28#8] ++ c ++ [0x29#8] := by simp
  have hform : splitMem line (a ++ [0x28#8] ++ c ++ [0x29#8]) = .ok (a, c) :=
    splitMem_of_form ⟨ha, ha'⟩ ⟨fun hm => hb (by simp [hm]), hc⟩
  have hsame : splitMem line (a ++ 0x28#8 :: (c ++ [0x29#8])) = .ok (ot, bt) := by
    rw [splitMem, if_neg (by simp [c1, c2]), if_neg, ← h]
    simp only [not_or, not_not, Nat.not_lt, take_idxOf_append ha, hidx, List.length_append, List.length_cons,
      List.length_nil]
    omega
  rw [e, hform] at hsame
  obtain ⟨rfl, rfl⟩ : a = ot ∧ c = bt := by simpa using hsame
  exact ⟨e, ⟨ha, ha'⟩, ⟨fun hm => hb (by simp [hm]), hc⟩⟩

/-- What `splitMem` rejects is `MalformedOperands` of the line (R110, R114). -/
theorem splitMem_error {line t : Bytes} {e : Err} (h : splitMem line t = .error e) : e = malformedOperands line := by
  rw [splitMem] at h
  split at h
  · cases h; rfl
  · split at h
    · cases h; rfl
    · cases h

end Sys2Proof
end

