-- ==== Sys2Proof/Laws/LineReader.lean ====
section
/-! SUPPORT. Everything the line reader can answer: what a line that encodes was, and which errors its operands raise. -/

namespace Sys2Proof

theorem resolve_ok {P : Params} {t : Bytes} {r : RegIdx} (h : resolve P t = .ok r) : P.regIndex t = some r := by
  rw [resolve] at h
  split at h
  · cases h
    assumption
  · cases h

theorem resolve_error {P : Params} {t : Bytes} {e : Err} (h : resolve P t = .error e) : e = unknownRegText t := by
  rw [resolve] at h
  split at h
  · cases h
  · cases h
    rfl

theorem parseOffset_ok {t : Bytes} {x : Int} (h : parseOffset t = .ok x) : OffsetInRange x := by
  rw [parseOffset] at h
  split at h
  · split at h
    · cases h
      assumption
    · cases h
  · cases h

theorem parseOffset_error {t : Bytes} {e : Err} (h : parseOffset t = .error e) : e = invalidOffset t := by
  rw [parseOffset] at h
  split at h
  · split at h
    · cases h
    · cases h
      rfl
  · cases h
    rfl

theorem except_bind_ok {α β : Type} {a : Except Err α} {f : α → Except Err β} {b : β} (h : (a >>= f) = .ok b) :
    ∃ x, a = .ok x ∧ f x = .ok b := by
  cases a with
  | error e => simp only [bind, Except.bind] at h; cases h
  | ok x => exact ⟨x, rfl, h⟩

theorem except_bind_error {α β : Type} {a : Except Err α} {f : α → Except Err β} {e : Err}
    (h : (a >>= f) = .error e) : a = .error e ∨ ∃ x, a = .ok x ∧ f x = .error e := by
  cases a with
  | error e' => simp only [bind, Except.bind] at h; cases h; exact .inl rfl
  | ok x => exact .inr ⟨x, rfl, h⟩

theorem parseR_ok {P : Params} {s m : Bytes} {f : Funct} {operands : List Bytes} {item : Item}
    (h : parseR P s m f operands = .ok item) :
    ∃ d a b rd rs rt, operands = [d, a, b] ∧ P.regIndex (stripSep d) = some rd ∧ P.regIndex (stripSep a) = some rs ∧
      P.regIndex (stripSep b) = some rt ∧ item = rItem m f rd rs rt := by
  unfold parseR at h
  split at h
  · obtain ⟨rd, h1, h⟩ := except_bind_ok h
    obtain ⟨rs, h2, h⟩ := except_bind_ok h
    obtain ⟨rt, h3, h⟩ := except_bind_ok h
    cases h
    exact ⟨_, _, _, rd, rs, rt, rfl, resolve_ok h1, resolve_ok h2, resolve_ok h3, rfl⟩
  · cases h

theorem parseMem_ok {P : Params} {s : Bytes} {k : IMnemonic} {operands : List Bytes} {item : Item}
    (h : parseMem P s k operands = .ok item) :
    ∃ t o ot bt x rs rt, operands = [t, o] ∧ splitMem s (stripSep o) = .ok (ot, bt) ∧ parseOffset ot = .ok x ∧
      P.regIndex bt = some rs ∧ P.regIndex (stripSep t) = some rt ∧ item = .instr (iInstr k rs rt x) := by
  unfold parseMem at h
  split at h
  · obtain ⟨⟨ot, bt⟩, h0, h⟩ := except_bind_ok h
    obtain ⟨x, h1, h⟩ := except_bind_ok h
    obtain ⟨rs, h2, h⟩ := except_bind_ok h
    obtain ⟨rt, h3, h⟩ := except_bind_ok h
    cases h
    exact ⟨_, _, ot, bt, x, rs, rt, rfl, h0, h1, resolve_ok h2, resolve_ok h3, rfl⟩
  · cases h

theorem parseBranch_ok {P : Params} {s : Bytes} {k : IMnemonic} {operands : List Bytes} {item : Item}
    (h : parseBranch P s k operands = .ok item) :
    ∃ a b o x rs rt, operands = [a, b, o] ∧ parseOffset (stripSep o) = .ok x ∧ P.regIndex (stripSep a) = some rs ∧
      P.regIndex (stripSep b) = some rt ∧ item = .instr (iInstr k rs rt x) := by
  unfold parseBranch at h
  split at h
  · obtain ⟨x, h1, h⟩ := except_bind_ok h
    obtain ⟨rs, h2, h⟩ := except_bind_ok h
    obtain ⟨rt, h3, h⟩ := except_bind_ok h
    cases h
    exact ⟨_, _, _, x, rs, rt, rfl, h1, resolve_ok h2, resolve_ok h3, rfl⟩
  · cases h

/-- A known mnemonic whose operands are rejected: the line's result is that error. -/
theorem encodeLine_error {P : Params} {line m : Bytes} {operands : List Bytes} {entry : Entry} {e : Err}
    (ht : tokens P (prepare P line) = m :: operands) (hl : P.lookup m = some entry)
    (h : parseEntry P (prepare P line) m operands entry = .error e) : encodeLine P line = .error e := by
  simp [encodeLine, parseLine, ht, hl, h, Except.map]

/-- A known mnemonic whose operands are read: the line's result is the item's word. -/
theorem encodeLine_item {P : Params} {line m : Bytes} {operands : List Bytes} {entry : Entry} {item : Item}
    (ht : tokens P (prepare P line) = m :: operands) (hl : P.lookup m = some entry)
    (h : parseEntry P (prepare P line) m operands entry = .ok item) :
    encodeLine P line = .word (encodeItem P item) := by
  simp [encodeLine, parseLine, ht, hl, h, Except.map]

/-- What a line that encodes was: an R row with three named registers, or an I row with two named registers and an offset in
range; and its word. -/
theorem encodeLine_word {P : Params} {line : Bytes} {w : Word} (hP : P.lawful = true) (h : encodeLine P line = .word w) :
    ∃ m operands, tokens P (prepare P line) = m :: operands ∧
      ((∃ f d s t nd ns nt, P.lookup m = some (.r f) ∧ P.rFunct m = some f ∧ P.regIndex nd = some d ∧
          P.regIndex ns = some s ∧ P.regIndex nt = some t ∧ w = composeR s t d f) ∨
       (∃ k s t x ns nt, P.lookup m = some (.i k) ∧ P.regIndex ns = some s ∧ P.regIndex nt = some t ∧
          OffsetInRange x ∧ w = composeI (P.iTable.opcode k) s t x)) := by
  rw [encodeLine, parseLine] at h
  split at h
  · cases h
  · cases h
  · rename_i item hi
    cases h
    split at hi
    · cases hi
    · rename_i m operands ht
      refine ⟨m, operands, ht, ?_⟩
      split at hi
      · cases hi
      · rename_i entry he
        cases hp : parseEntry P (prepare P line) m operands entry with
        | error _ => rw [hp] at hi; cases hi
        | ok it =>
          rw [hp] at hi
          cases hi
          cases entry with
          | r f =>
            have hm := (lookup_r_iff P m f).mp he
            obtain ⟨_, _, _, rd, rs, rt, -, h1, h2, h3, rfl⟩ := parseR_ok hp
            exact .inl ⟨f, rd, rs, rt, _, _, _, he, hm, h1, h2, h3, encodeItem_rItem hP hm ..⟩
          | i k =>
            rw [parseEntry] at hp
            right
            split at hp
            · obtain ⟨_, _, _, _, x, rs, rt, -, -, hx, h1, h2, rfl⟩ := parseMem_ok hp
              exact ⟨k, rs, rt, x, _, _, he, h1, h2, parseOffset_ok hx, encode_iInstr ..⟩
            · obtain ⟨_, _, _, x, rs, rt, -, hx, h1, h2, rfl⟩ := parseBranch_ok hp
              exact ⟨k, rs, rt, x, _, _, he, h1, h2, parseOffset_ok hx, encode_iInstr ..⟩

/-- The kinds an operand error can have, with its payload (R204, R114). -/
theorem parseEntry_error {P : Params} {s m : Bytes} {operands : List Bytes} {entry : Entry} {e : Err}
    (h : parseEntry P s m operands entry = .error e) :
    e = malformedOperands s ∨ (∃ t, e = unknownRegText t) ∨ ∃ t, e = invalidOffset t := by
  cases entry with
  | r f =>
    simp only [parseEntry] at h
    unfold parseR at h
    split at h
    · rcases except_bind_error h with h | ⟨_, -, h⟩
      · exact .inr (.inl ⟨_, resolve_error h⟩)
      rcases except_bind_error h with h | ⟨_, -, h⟩
      · exact .inr (.inl ⟨_, resolve_error h⟩)
      rcases except_bind_error h with h | ⟨_, -, h⟩
      · exact .inr (.inl ⟨_, resolve_error h⟩)
      cases h
    · cases h
      exact .inl rfl
  | i k =>
    simp only [parseEntry] at h
    split at h
    · unfold parseMem at h
      split at h
      · rcases except_bind_error h with h | ⟨⟨_, _⟩, -, h⟩
        · exact .inl (splitMem_error h)
        rcases except_bind_error h with h | ⟨_, -, h⟩
        · exact .inr (.inr ⟨_, parseOffset_error h⟩)
        rcases except_bind_error h with h | ⟨_, -, h⟩
        · exact .inr (.inl ⟨_, resolve_error h⟩)
        rcases except_bind_error h with h | ⟨_, -, h⟩
        · exact .inr (.inl ⟨_, resolve_error h⟩)
        cases h
      · cases h
        exact .inl rfl
    · unfold parseBranch at h
      split at h
      · rcases except_bind_error h with h | ⟨_, -, h⟩
        · exact .inr (.inr ⟨_, parseOffset_error h⟩)
        rcases except_bind_error h with h | ⟨_, -, h⟩
        · exact .inr (.inl ⟨_, resolve_error h⟩)
        rcases except_bind_error h with h | ⟨_, -, h⟩
        · exact .inr (.inl ⟨_, resolve_error h⟩)
        cases h
      · cases h
        exact .inl rfl

/-! ### Canonical text read back -/

/-- A run followed by one space is a token. -/
theorem tokens_space {P : Params} (hp : P.plainText = true) {run : Bytes} (hne : run ≠ [])
    (h : ∀ c ∈ run, P.isWs c = false) (rest : Bytes) : tokens P (run ++ [0x20#8] ++ rest) = run :: tokens P rest := by
  rw [List.append_assoc]
  exact tokens_run_ws hne h (plainText_space hp).1 rest

/-- A run followed by a comma and one space is a token, the comma part of it. -/
theorem tokens_comma {P : Params} (hp : P.plainText = true) {run : Bytes} (h : ∀ c ∈ run, P.isWs c = false)
    (rest : Bytes) : tokens P (run ++ [0x2C#8, 0x20#8] ++ rest) = (run ++ [0x2C#8]) :: tokens P rest := by
  have := tokens_run_ws (P := P) (run := run ++ [0x2C#8]) (c := 0x20#8) (by simp) (by
    intro d hd
    rcases List.mem_append.mp hd with hd | hd
    · exact h d hd
    · simp only [List.mem_singleton] at hd
      subst hd
      exact (plainText_mark hp (by simp)).1) (plainText_space hp).1 rest
  rw [← this]
  simp

theorem spells_clean {P : Params} {key : Bytes} (h : P.spells key = true) :
    ∀ c ∈ key, P.isWs c = false ∧ c ≠ P.commentChar :=
  fun c hc => ⟨(((spells_iff P key).mp h).2 c hc).1, (((spells_iff P key).mp h).2 c hc).2.1⟩

theorem spells_last {P : Params} {key : Bytes} (h : P.spells key = true) : key.getLast? ≠ some 0x2C#8 :=
  last_ne_comma_of_not_mem fun c hc => (((spells_iff P key).mp h).2 c hc).2.2.1

/-- Text from a table key to a clean ending, with no comment marker between, is already prepared. -/
theorem prepare_canonical {P : Params} {m mid last : Bytes} (hm : P.spells m = true)
    (hmid : ∀ c ∈ mid, c ≠ P.commentChar) (hl : last ≠ []) (hlast : ∀ c ∈ last, P.isWs c = false ∧ c ≠ P.commentChar) :
    prepare P (m ++ mid ++ last) = m ++ mid ++ last := by
  apply prepare_of_clean
  · intro c hc
    rcases List.mem_append.mp hc with hc | hc
    · rcases List.mem_append.mp hc with hc | hc
      · exact (spells_clean hm c hc).2
      · exact hmid c hc
    · exact (hlast c hc).2
  · intro c hc
    obtain ⟨a, r, rfl⟩ := List.exists_cons_of_ne_nil ((spells_iff P m).mp hm).1
    simp only [List.cons_append, List.head?_cons, Option.mem_def, Option.some.injEq] at hc
    subst hc
    exact (spells_clean hm a (by simp)).1
  · intro c hc
    rw [Option.mem_def, List.getLast?_append_of_ne_nil _ hl] at hc
    exact (hlast c (List.mem_of_getLast? hc)).1

end Sys2Proof
end

