-- ==== Sys2Proof/Laws/State.lean ====
section
/-! SUPPORT. What each named operation leaves in each field, by rfl, so that no later proof unfolds a record update. -/

namespace Sys2Proof.Machine

@[simp] theorem Port.idle_requests {α β : Type} : (Port.idle : Port α β).requests = [] := rfl
@[simp] theorem Port.idle_results {α β : Type} : (Port.idle : Port α β).results = [] := rfl

@[simp] theorem Port.answer_requests {α β : Type} (r : β) (p : Port α β) : (p.answer r).requests = p.requests.tail := rfl
@[simp] theorem Port.answer_results {α β : Type} (r : β) (p : Port α β) : (p.answer r).results = p.results ++ [r] := rfl

@[simp] theorem State.answerEnc_params (r : EncResult) (s : State) : (s.answerEnc r).params = s.params := rfl
@[simp] theorem State.answerEnc_enc_requests (r : EncResult) (s : State) :
    (s.answerEnc r).enc.requests = s.enc.requests.eraseP (lineFits s.params) := rfl
@[simp] theorem State.answerEnc_enc_results (r : EncResult) (s : State) :
    (s.answerEnc r).enc.results = s.enc.results ++ [r] := rfl
@[simp] theorem State.answerEnc_dec (r : EncResult) (s : State) : (s.answerEnc r).dec = s.dec := rfl
@[simp] theorem State.answerEnc_framer (r : EncResult) (s : State) : (s.answerEnc r).framer = s.framer := rfl

@[simp] theorem State.answerDec_params (r : DecResult) (s : State) : (s.answerDec r).params = s.params := rfl
@[simp] theorem State.answerDec_enc (r : DecResult) (s : State) : (s.answerDec r).enc = s.enc := rfl
@[simp] theorem State.answerDec_dec (r : DecResult) (s : State) : (s.answerDec r).dec = s.dec.answer r := rfl
@[simp] theorem State.answerDec_framer (r : DecResult) (s : State) : (s.answerDec r).framer = s.framer := rfl

@[simp] theorem State.answerFrame_params (r : FrameResult) (s : State) : (s.answerFrame r).params = s.params := by
  cases r <;> rfl
@[simp] theorem State.answerFrame_enc (r : FrameResult) (s : State) : (s.answerFrame r).enc = s.enc := by
  cases r <;> rfl
@[simp] theorem State.answerFrame_framer (r : FrameResult) (s : State) : (s.answerFrame r).framer = s.framer.answer r := by
  cases r <;> rfl
@[simp] theorem State.answerFrame_dec_results (r : FrameResult) (s : State) :
    (s.answerFrame r).dec.results = s.dec.results := by
  cases r <;> rfl

@[simp] theorem State.presentLine_params (l : Bytes) (s : State) : (s.presentLine l).params = s.params := rfl
@[simp] theorem State.presentWord_params (w : Word) (s : State) : (s.presentWord w).params = s.params := rfl
@[simp] theorem State.presentStream_params (x : Stream) (s : State) : (s.presentStream x).params = s.params := rfl
@[simp] theorem State.takeResults_params (s : State) : s.takeResults.params = s.params := rfl
@[simp] theorem State.resetPorts_params (s : State) : s.resetPorts.params = s.params := rfl
@[simp] theorem State.resetPorts_enc (s : State) : s.resetPorts.enc = Port.idle := rfl
@[simp] theorem State.resetPorts_dec (s : State) : s.resetPorts.dec = Port.idle := rfl
@[simp] theorem State.resetPorts_framer (s : State) : s.resetPorts.framer = Port.idle := rfl

end Sys2Proof.Machine
end

