-- ==== Sys2Proof/Laws/Ops.lean ====
section
/-! SUPPORT. Whose turn it is in terms of the ports, and everything the shared completion and `exec` can do. -/

namespace Sys2Proof.Machine

/-- It is the Decoder's turn exactly when a word is waiting. -/
theorem State.turn_decode_iff (s : State) (w : Word) :
    s.turn = .decode w ↔ ∃ rest, s.dec.requests = w :: rest := by
  rw [State.turn]
  split <;> simp_all

/-- The line in progress is the first that fits, behind none but overlong ones. -/
theorem State.nextLine_iff (s : State) (line : Bytes) :
    s.nextLine = some line ↔ lineFits s.params line = true ∧
      ∃ pre rest, s.enc.requests = pre ++ line :: rest ∧ ∀ l ∈ pre, lineFits s.params l = false := by
  simp [State.nextLine, List.find?_eq_some_iff_append]

/-- No line is in progress exactly when none that waits fits. -/
theorem State.nextLine_none_iff (s : State) :
    s.nextLine = none ↔ ∀ l ∈ s.enc.requests, lineFits s.params l = false := by
  simp [State.nextLine]

/-- It is the Encoder's turn exactly when no word and a line that fits is waiting. -/
theorem State.turn_encode_iff (s : State) (line : Bytes) :
    s.turn = .encode line ↔ s.dec.requests = [] ∧ lineFits s.params line = true ∧
      ∃ pre rest, s.enc.requests = pre ++ line :: rest ∧ ∀ l ∈ pre, lineFits s.params l = false := by
  rw [← s.nextLine_iff, State.turn]
  split <;> simp_all

/-- It is the framing adapters' turn exactly when no word, no line that fits and a stream is waiting. -/
theorem State.turn_frame_iff (s : State) (x : Stream) :
    s.turn = .frame x ↔ s.dec.requests = [] ∧ (∀ l ∈ s.enc.requests, lineFits s.params l = false) ∧
      ∃ rest, s.framer.requests = x :: rest := by
  rw [← s.nextLine_none_iff, State.turn]
  split <;> simp_all

/-- There is no transition at the ports exactly when nothing waits but overlong lines. -/
theorem State.turn_overlong_iff (s : State) (line : Bytes) :
    s.turn = .overlong line ↔ s.dec.requests = [] ∧ s.framer.requests = [] ∧
      (∀ l ∈ s.enc.requests, lineFits s.params l = false) ∧ ∃ rest, s.enc.requests = line :: rest := by
  rw [← s.nextLine_none_iff, State.turn]
  split <;> simp_all

/-- Nothing is in progress exactly when nothing is waiting. -/
theorem State.turn_idle_iff (s : State) :
    s.turn = .idle ↔ s.dec.requests = [] ∧ s.enc.requests = [] ∧ s.framer.requests = [] := by
  have h : s.enc.requests = [] → s.nextLine = none := fun h => by simp [State.nextLine, h]
  rw [State.turn]
  split <;> simp_all

/-- The Encoder's answer takes the first line that fits and leaves every other line waiting, in order. -/
theorem State.answerEnc_of_split {s : State} {pre rest : List Bytes} {line : Bytes}
    (h : s.enc.requests = pre ++ line :: rest) (hpre : ∀ l ∈ pre, lineFits s.params l = false)
    (hf : lineFits s.params line = true) (r : EncResult) :
    s.answerEnc r = { s with enc := ⟨pre ++ rest, s.enc.results ++ [r]⟩ } := by
  rw [State.answerEnc, h, List.eraseP_append_right _ (by simpa using hpre), List.eraseP_cons_of_pos hf]

theorem translate_decode {s : State} {w : Word} (h : s.turn = .decode w) (word : Word) (text : DecResult) :
    translate word text s = .next (s.answerDec text) := by
  rw [translate, h]

theorem translate_encode {s : State} {line : Bytes} (h : s.turn = .encode line) (word : Word) (text : DecResult) :
    translate word text s = .next (s.answerEnc (.word word)) := by
  rw [translate, h]

/-- Everything the shared completion can do. -/
theorem translate_cases {word : Word} {text : DecResult} {s s' : State} (h : translate word text s = .next s') :
    (∃ w, s.turn = .decode w ∧ s' = s.answerDec text) ∨
    (∃ line, s.turn = .encode line ∧ s' = s.answerEnc (.word word)) ∨
    ((∀ w, s.turn ≠ .decode w) ∧ (∀ line, s.turn ≠ .encode line) ∧ s' = s) := by
  rw [translate] at h
  cases ht : s.turn with
  | decode w => simp only [ht, Host.Outcome.next.injEq] at h; exact .inl ⟨w, rfl, h.symm⟩
  | encode line => simp only [ht, Host.Outcome.next.injEq] at h; exact .inr (.inl ⟨line, rfl, h.symm⟩)
  | frame x => simp only [ht, Host.Outcome.next.injEq] at h; exact .inr (.inr ⟨by simp, by simp, h.symm⟩)
  | overlong l => simp only [ht, Host.Outcome.next.injEq] at h; exact .inr (.inr ⟨by simp, by simp, h.symm⟩)
  | idle => simp only [ht, Host.Outcome.next.injEq] at h; exact .inr (.inr ⟨by simp, by simp, h.symm⟩)

/-- Every instruction is the shared completion with its own word and its own text. -/
theorem exec_eq_translate (i : Instr) (s : State) :
    exec i s = translate (encode s.params i) (renderInstr s.params i) s := by
  cases i <;> rfl

/-- Every item likewise. -/
theorem execItem_eq_translate (item : Item) (s : State) :
    execItem item s = translate (encodeItem s.params item) (renderItem s.params item) s := by
  cases item with
  | instr i => exact exec_eq_translate i s
  | rRow m f d a b => rfl

end Sys2Proof.Machine
end

