-- ==== Sys2Proof/Laws/PerInstr.lean ====
section
/-! SUPPORT. A statement made once per instruction: its word is of its own format, and only the R format has shift amount 0 by rule
(R61, R62, R63). -/

/-- Under every lawful table the instruction's word has opcode 0 exactly when the instruction is of the R format, and then its
shift amount is 0. -/
def Sys2Proof.Laws.OwnFormat.Statement (i : Sys2Proof.Instr) : Prop :=
  ∀ P : Sys2Proof.Params, P.lawful = true →
    (Sys2Proof.opcodeOf (Sys2Proof.encode P i) = 0#6 ↔ Sys2Proof.Machine.isRItem (.instr i) = true) ∧
    (Sys2Proof.Machine.isRItem (.instr i) = true → Sys2Proof.shamtOf (Sys2Proof.encode P i) = 0#5)

namespace Sys2Proof.Laws

theorem OwnFormat.of_iInstr (k : IMnemonic) (s t : RegIdx) (x : Int) : OwnFormat.Statement (iInstr k s t x) := by
  intro P hP
  have hr : Machine.isRItem (.instr (iInstr k s t x)) = false := by cases k <;> rfl
  rw [encode_iInstr, opcodeOf_composeI, hr]
  simp [opcode_ne_zero hP k]

theorem OwnFormat.add (d s t : RegIdx) : OwnFormat.Statement (.add d s t) :=
  fun _ _ => ⟨by simp [encode, opcodeOf_composeR, Machine.isRItem], fun _ => shamtOf_composeR ..⟩

theorem OwnFormat.lw (t : RegIdx) (x : Int) (s : RegIdx) : OwnFormat.Statement (.lw t x s) := OwnFormat.of_iInstr .lw s t x

theorem OwnFormat.sw (t : RegIdx) (x : Int) (s : RegIdx) : OwnFormat.Statement (.sw t x s) := OwnFormat.of_iInstr .sw s t x

theorem OwnFormat.beq (s t : RegIdx) (x : Int) : OwnFormat.Statement (.beq s t x) := OwnFormat.of_iInstr .beq s t x

theorem OwnFormat.bne (s t : RegIdx) (x : Int) : OwnFormat.Statement (.bne s t x) := OwnFormat.of_iInstr .bne s t x

end Sys2Proof.Laws
end

