-- ==== Sys2Proof/Laws/Step.lean ====
section
/-! SUPPORT. Everything a step can do, said once. -/

namespace Sys2Proof.Machine

theorem runDecode_eq {s : State} {w : Word} (h : s.turn = .decode w) :
    runDecode w s = .next (s.answerDec (decodeText s.params w)) := by
  rw [runDecode, decodeText]
  cases decodeWord s.params w with
  | error e => rfl
  | ok item => exact (execItem_eq_translate item s).trans (translate_decode h _ _)

theorem runEncode_eq {s : State} {line : Bytes} (h : s.turn = .encode line) :
    runEncode line s = .next (s.answerEnc (encodeLine s.params line)) := by
  rw [runEncode, encodeLine]
  cases parseLine s.params line with
  | error e => rfl
  | ok o =>
    cases o with
    | none => rfl
    | some item => exact (execItem_eq_translate item s).trans (translate_encode h _ _)

/-- Under lawful tables a step is the transaction whose turn it is. -/
theorem step_eq {s : State} (hl : s.params.lawful = true) :
    step s = match s.turn with
      | .decode w => .next (s.answerDec (decodeText s.params w))
      | .encode line => .next (s.answerEnc (encodeLine s.params line))
      | .frame x => .next (s.answerFrame (frame x))
      | .overlong _ => .refused .lineTooLong
      | .idle => .next s := by
  rw [step, runTurn, if_pos hl]
  cases ht : s.turn with
  | decode w => exact runDecode_eq ht
  | encode line => exact runEncode_eq ht
  | frame x => rfl
  | overlong l => rfl
  | idle => rfl

/-- Under unlawful tables every step is refused. -/
theorem step_unlawful {s : State} (hl : s.params.lawful = false) : step s = .refused .unlawfulTables := by
  simp [step, runTurn, hl]

/-- Everything a step can do when it answers: one transaction of the port whose turn it is, or nothing. -/
theorem step_cases {s s' : State} (h : step s = .next s') :
    s.params.lawful = true ∧
    ((∃ w, s.turn = .decode w ∧ s' = s.answerDec (decodeText s.params w)) ∨
     (∃ line, s.turn = .encode line ∧ s' = s.answerEnc (encodeLine s.params line)) ∨
     (∃ x, s.turn = .frame x ∧ s' = s.answerFrame (frame x)) ∨
     (s.turn = .idle ∧ s' = s)) := by
  cases hl : s.params.lawful with
  | false => rw [step_unlawful hl] at h; cases h
  | true =>
    rw [step_eq hl] at h
    cases ht : s.turn <;> simp only [ht] at h <;> cases h <;> simp

theorem steps_zero (s : State) : steps 0 s = .next s := rfl

/-- A run whose first step answers is the rest of the run from the state after it. -/
theorem steps_succ {s s' : State} (h : step s = .next s') (k : Nat) : steps (k + 1) s = steps k s' := by
  have e : steps (k + 1) s = Host.Outcome.casesOn (motive := fun _ => Host.Outcome State Fault Refusal) (step s)
      (fun s' => steps k s') (fun r => .fault r) (fun r => .refused r) := by
    show (match step s with | .next s' => steps k s' | .fault r => .fault r | .refused r => .refused r) = _
    generalize step s = o
    cases o <;> rfl
  rw [e, h]

end Sys2Proof.Machine
end

