-- ==== Sys2Proof/Tests/Slice0.lean ====
section
/-! SUPPORT. Tests. Expected results are those of spec/95_test_vectors.md (the id is named) or are written out by hand from the
named rule. `test_witness_X` shows concrete values that meet the hypotheses of the statement `Obligations.X`, one for each
clause. -/

namespace Sys2Proof.Machine.Tests

/-- The bytes of an ASCII text. -/
def bytes (s : String) : Bytes := s.toList.map fun c => BitVec.ofNat 8 c.toNat

/-- A block in which the Decoder is given one word. -/
def decoding (w : Word) : State := State.reset.presentWord w

/-- A block in which the Encoder is given one line. -/
def encoding (s : String) : State := State.reset.presentLine (bytes s)

/-- The state an outcome gives, if it is a next state. -/
def next? : Host.Outcome State Fault Refusal → Option State
  | .next s => some s
  | .fault _ => none
  | .refused _ => none

/-- What the Decoder answers in an outcome. -/
def decoded (o : Host.Outcome State Fault Refusal) : Option (List DecResult) := (next? o).map fun s => s.dec.results

/-- What the Encoder answers in an outcome. -/
def encoded (o : Host.Outcome State Fault Refusal) : Option (List EncResult) := (next? o).map fun s => s.enc.results

/-- Lawful tables other than the defaults: a further R row `sub -> 34` (R171), other I opcodes (D3) and a bound on the line. -/
def other : Params :=
  { Params.default with
    rTable := Params.default.rTable ++ [⟨bytes "sub", 34#6⟩]
    iTable := { lw := 1#6, sw := 63#6, beq := 43#6, bne := 35#6 }
    maxLineLen := some 17 }

/-- A block whose Encoder holds, before and after a line of exactly `MaxLineLen` bytes, a line one byte longer. -/
def overlongFirst : State where
  params := other
  enc := ⟨[bytes "add  $t1, $t2, $t3", bytes "add $t1, $t2, $t3", bytes "add $t1, $t2, $t3 "], []⟩
  dec := Port.idle
  framer := Port.idle

/-- A block in which nothing waits but a line one byte longer than `MaxLineLen`. -/
def overlongOnly : State := { overlongFirst with enc := ⟨[bytes "add  $t1, $t2, $t3"], []⟩ }

/-- Unlawful tables: `sub` twice, with the function code of `add`. -/
def unlawful : Params := { Params.default with rTable := [⟨kwAdd, addFunct⟩, ⟨bytes "sub", addFunct⟩] }

/-- A block with the other tables, every port waiting. -/
def busy : State where
  params := other
  enc := ⟨[bytes "add $t1, $t2, $t3", bytes "# a comment line", bytes "lw $t1, 4$s0"], []⟩
  dec := ⟨[0x014B4822#32], [.error ⟨.unknownOpcode, .field 63⟩]⟩
  framer := ⟨[.byteStream [0x01#8]], []⟩

/-! ### Well-formed instructions -/

theorem test_wellFormed_accepts :
    (Instr.add 9 10 11).WellFormed Params.default ∧ (Instr.lw 9 (-32768) 16).WellFormed Params.default ∧
    (Instr.sw 23 32767 16).WellFormed Params.default ∧ (Instr.beq 16 17 (-1)).WellFormed Params.default ∧
    (Instr.bne 8 9 0).WellFormed Params.default := by decide

/-- R22, R65: index 7, 24, 0 and 31 have no name in the default table. -/
theorem test_wellFormed_unnamed_register :
    ¬ (Instr.add 7 10 11).WellFormed Params.default ∧ ¬ (Instr.add 9 24 11).WellFormed Params.default ∧
    ¬ (Instr.add 9 10 0).WellFormed Params.default ∧ ¬ (Instr.lw 0 4 16).WellFormed Params.default ∧
    ¬ (Instr.sw 9 4 31).WellFormed Params.default ∧ ¬ (Instr.beq 31 17 4).WellFormed Params.default ∧
    ¬ (Instr.bne 16 24 4).WellFormed Params.default := by decide

/-- R68: the offset's range. -/
theorem test_wellFormed_offset_range :
    ¬ (Instr.lw 9 32768 16).WellFormed Params.default ∧ ¬ (Instr.sw 9 (-32769) 16).WellFormed Params.default ∧
    ¬ (Instr.beq 16 17 32768).WellFormed Params.default ∧ ¬ (Instr.bne 16 17 (-32769)).WellFormed Params.default := by decide

/-! ### Decoding: words written bit by bit from R61 and R62 -/

/-- R61: opcode 0, source 10, target 11, destination 9, shift amount 0 and 31, function 32 (T-D1, T-D3). -/
theorem test_decode_add :
    decodeTableWord 32 0b00000001010010110100100000100000 = some (.add 9 10 11) ∧
    decodeTableWord 32 0b00000001010010110100111111100000 = some (.add 9 10 11) := by decide

/-- R62: opcode 35, source 16, target 9, offset -4 (T-D10). -/
theorem test_decode_lw : decodeTableWord 32 0b10001110000010011111111111111100 = some (.lw 9 (-4) 16) := by decide

/-- R62: opcode 43, source 16, target 23, offset 32767 (T-D11). -/
theorem test_decode_sw : decodeTableWord 32 0b10101110000101110111111111111111 = some (.sw 23 32767 16) := by decide

/-- R62: opcode 4, source 16, target 17, offset -1 (T-D12). -/
theorem test_decode_beq : decodeTableWord 32 0b00010010000100011111111111111111 = some (.beq 16 17 (-1)) := by decide

/-- R62: opcode 5, source 8, target 9, offset -32768 (T-B3). -/
theorem test_decode_bne : decodeTableWord 32 0b00010101000010011000000000000000 = some (.bne 8 9 (-32768)) := by decide

/-- R69, R70: neighbours of the five rows are refused (T-D4, T-D5, T-D13, T-D14, T-D16). -/
theorem test_decode_rejects :
    decodeTableWord 32 0x014B4821 = none ∧ decodeTableWord 32 0 = none ∧ decodeTableWord 32 0xFFFFFFFF = none ∧
    decodeTableWord 32 0x08000000 = none ∧ decodeTableWord 32 0x20090004 = none := by decide

/-- T-R2, T-M3, T-M5, T-B1, T-B4: the encoder writes the words of the vectors. -/
theorem test_encode_words :
    encode Params.default (.add 16 17 18) = 0x02328020#32 ∧ encode Params.default (.sw 9 (-4) 16) = 0xAE09FFFC#32 ∧
    encode Params.default (.lw 8 32767 17) = 0x8E287FFF#32 ∧ encode Params.default (.beq 16 17 100) = 0x12110064#32 ∧
    encode Params.default (.bne 10 11 32767) = 0x154B7FFF#32 := by decide

/-- T-F2, T-F4, T-F5, T-F8, T-F9: framing. -/
theorem test_framing :
    frame (.byteStream [0x01#8, 0x4B#8, 0x48#8, 0x20#8]) = .words [0x014B4820#32] ∧
    frame (.byteStream []) = .error emptyInput ∧
    frame (.byteStream [0x01#8, 0x4B#8, 0x48#8, 0x20#8, 0x8E#8, 0x09#8, 0x00#8]) = .error (invalidWordLength 7) ∧
    frame (.bitString (bytes "100011100000100111111111111111000")) = .error (invalidWordLength 33) ∧
    frame (.bitString (bytes "10001110000010011111111111111102")) = .error (invalidWordLength 32) := by decide

/-! ### Each instruction, at most two steps -/

/-- T-D2. -/
theorem test_add_decoder : decoded (step (decoding 0x014B4860#32)) = some [.text (bytes "add $t1, $t2, $t3")] := by decide
/-- T-L5. -/
theorem test_add_encoder : encoded (step (encoding "  add\t$t1, $t2, $t3   # c")) = some [.word 0x014B4820#32] := by decide
/-- T-D10. -/
theorem test_lw_decoder : decoded (step (decoding 0x8E09FFFC#32)) = some [.text (bytes "lw $t1, -4($s0)")] := by decide
/-- P4 line 3. -/
theorem test_lw_encoder : encoded (step (encoding "lw $s7, +0010($t7),")) = some [.word 0x8DF7000A#32] := by decide
/-- T-D11. -/
theorem test_sw_decoder : decoded (step (decoding 0xAE177FFF#32)) = some [.text (bytes "sw $s7, 32767($s0)")] := by decide
/-- T-M22. -/
theorem test_sw_encoder : encoded (step (encoding "sw $t1, 8($s0)#x")) = some [.word 0xAE090008#32] := by decide
/-- T-D12. -/
theorem test_beq_decoder : decoded (step (decoding 0x1211FFFF#32)) = some [.text (bytes "beq $s0, $s1, -1")] := by decide
/-- P4 line 5. -/
theorem test_beq_encoder : encoded (step (encoding "beq $s2,, $s3,, -00001")) = some [.word 0x1253FFFF#32] := by decide
/-- T-B3. -/
theorem test_bne_decoder : decoded (step (decoding 0x15098000#32)) = some [.text (bytes "bne $t0, $t1, -32768")] := by decide
/-- T-B4. -/
theorem test_bne_encoder : encoded (step (encoding "bne $t2, $t3, 32767")) = some [.word 0x154B7FFF#32] := by decide

/-- T-D5 to T-D9, T-D17 to T-D19: the order of the Decoder's checks. -/
theorem test_decoder_errors :
    decodeText Params.default 0#32 = .error ⟨.unknownFunction, .field 0⟩ ∧
    decodeText Params.default 0x00000020#32 = .error ⟨.unknownRegister, .field 0⟩ ∧
    decodeText Params.default 0x03FF4820#32 = .error ⟨.unknownRegister, .field 31⟩ ∧
    decodeText Params.default 0x014B0020#32 = .error ⟨.unknownRegister, .field 0⟩ ∧
    decodeText Params.default 0xFC000000#32 = .error ⟨.unknownOpcode, .field 63⟩ ∧
    decodeText Params.default 0x8E1F0004#32 = .error ⟨.unknownRegister, .field 31⟩ := by decide

/-- T-X1 to T-X8: the order of the Encoder's checks (R204). -/
theorem test_encoder_errors :
    encodeLine Params.default (bytes "addx $bad") = .error ⟨.unknownInstruction, .text (bytes "addx")⟩ ∧
    encodeLine Params.default (bytes "add $bad") = .error ⟨.malformedOperands, .text (bytes "add $bad")⟩ ∧
    encodeLine Params.default (bytes "lw $bad, 99999($bad)") = .error ⟨.invalidOffset, .text (bytes "99999")⟩ ∧
    encodeLine Params.default (bytes "lw $bad1, 4($bad2)") = .error ⟨.unknownRegister, .text (bytes "$bad2")⟩ ∧
    encodeLine Params.default (bytes "beq $bad, $s1, 70000") = .error ⟨.invalidOffset, .text (bytes "70000")⟩ ∧
    encodeLine Params.default (bytes "beq $bad1, $bad2, 1") = .error ⟨.unknownRegister, .text (bytes "$bad1")⟩ ∧
    encodeLine Params.default (bytes "lw $bad, 4$s0") = .error ⟨.malformedOperands, .text (bytes "lw $bad, 4$s0")⟩ ∧
    encodeLine Params.default (bytes "add $t1, $bad1, $bad2") = .error ⟨.unknownRegister, .text (bytes "$bad1")⟩ := by decide

/-- R30, R232: an overlong line stays and delays neither the line behind it nor a stream; alone it is refused (R61 for the word). -/
theorem test_overlong_passed_over :
    encoded (step overlongFirst) = some [.word 0x014B4820#32] ∧
    (next? (step overlongFirst)).map (fun s => s.enc.requests) =
      some [bytes "add  $t1, $t2, $t3", bytes "add $t1, $t2, $t3 "] ∧
    (next? (step (overlongOnly.presentStream (.byteStream [])))).map (fun s => s.framer.results) =
      some [.error emptyInput] ∧ next? (step overlongOnly) = none := by decide

/-- R208: no report while a line or a stream waits. -/
theorem test_no_report_while_waiting :
    (encoding "x").encReport = none ∧ (State.reset.presentStream (.byteStream [])).decReport = none := by decide

/-- R208, R209 on P2's shape: the error keeps its line number, and `Atomic` commits nothing while `Incremental` commits the rest. -/
theorem test_batch_policies :
    let rs : List EncResult := [.empty, .word 0x8E080000#32, .error ⟨.unknownRegister, .text (bytes "$zero")⟩]
    (encReport .atomic rs).errors = [(3, ⟨.unknownRegister, .text (bytes "$zero")⟩)] ∧
    (encReport .atomic rs).status = .nonZero ∧ encOutputBytes .atomic rs = [] ∧
    encOutputBytes .incremental rs = [0x8E#8, 0x08#8, 0x00#8, 0x00#8] := by decide

/-! ### Witnesses -/

theorem test_witness_LookupsAreInverse :
    Params.default.lawful = true ∧ other.lawful = true ∧ Params.default.lookup (bytes "add") = some (.r 32#6) ∧
    other.lookup (bytes "sub") = some (.r 34#6) := by decide

theorem test_witness_DecodeOfEncode :
    Params.default.lawful = true ∧ other.lawful = true ∧ (Instr.add 31 0 31).OffsetOk ∧ (Instr.lw 0 (-32768) 31).OffsetOk ∧
    (Instr.sw 31 32767 0).OffsetOk ∧ (Instr.beq 0 31 (-1)).OffsetOk ∧ (Instr.bne 31 0 0).OffsetOk := by decide

theorem test_witness_EncodeOfDecode :
    other.lawful = true ∧ decodeWord other 0x014B4FE2#32 = .ok (.rRow (bytes "sub") 34 9 10 11) ∧
    decodeWord other 0xFC008000#32 = .ok (.instr (.sw 0 (-32768) 0)) := by decide

theorem test_witness_OffsetFieldHoldsLow16 :
    (Instr.lw 9 (-32768) 16).offset? = some (-32768) ∧ (Instr.bne 9 16 32767).offset? = some 32767 ∧
    OffsetInRange (-32768) ∧ OffsetInRange (-1) ∧ OffsetInRange 0 ∧ OffsetInRange 32767 := by decide

theorem test_witness_OffsetFieldReadSigned :
    opcodeOf 0x8E098000#32 ≠ 0#6 ∧ decodeWord Params.default 0x8E098000#32 = .ok (.instr (.lw 9 (-32768) 16)) ∧
    opcodeOf 0x12117FFF#32 ≠ 0#6 ∧ decodeWord Params.default 0x12117FFF#32 = .ok (.instr (.beq 16 17 32767)) := by decide

theorem test_witness_OffsetCodecInverse :
    OffsetInRange (-32768) ∧ OffsetInRange 32767 ∧
    offsetValue (bytes "32768") = some 32768 ∧ ¬ OffsetInRange 32768 ∧
    offsetValue (bytes "-32769") = some (-32769) ∧ ¬ OffsetInRange (-32769) := by decide

theorem test_witness_RFormatFields :
    other.lawful = true ∧ other.rFunct (bytes "add") = some 32#6 ∧ other.rFunct (bytes "sub") = some 34#6 := by decide

theorem test_witness_IFormatFields : Params.default.lawful = true ∧ other.lawful = true := by decide

theorem test_witness_FormatByOpcodeAlone :
    decodeWord Params.default 0x014B4820#32 = .ok (.instr (.add 9 10 11)) ∧
    decodeWord Params.default 0x12110064#32 = .ok (.instr (.beq 16 17 100)) ∧
    Params.default.lawful = true ∧ encodeLine Params.default (bytes "add $t1, $t2, $t3") = .word 0x014B4820#32 ∧
    encodeLine Params.default (bytes "beq $s0, $s1, 100") = .word 0x12110064#32 := by decide

theorem test_witness_ShiftAmountIgnored :
    opcodeOf 0x014B4820#32 = 0#6 ∧
      ∀ k, k < 6 ∨ 10 < k → (0x014B4820#32).getLsbD k = (0x014B4FE0#32).getLsbD k := by
  refine ⟨by decide, fun k hk => ?_⟩
  by_cases h : k < 32
  · exact (by decide : ∀ k : Fin 32, k.val < 6 ∨ 10 < k.val →
      (0x014B4820#32).getLsbD k.val = (0x014B4FE0#32).getLsbD k.val) ⟨k, h⟩ hk
  · rw [BitVec.getLsbD_of_ge _ _ (by omega), BitVec.getLsbD_of_ge _ _ (by omega)]

/-- T-D4, then source, target and destination without a name, then a text. -/
theorem test_witness_RWordsTranslateInOrder :
    let P := Params.default
    (opcodeOf 0x014B4821#32 = 0#6 ∧ P.rByFunct (functOf 0x014B4821#32) = none) ∧
    (P.rByFunct (functOf 0x00000020#32) = some kwAdd ∧ P.regName (sourceOf 0x00000020#32) = none) ∧
    (P.regName (sourceOf 0x01FF4820#32) = some (bytes "$t7") ∧ P.regName (targetOf 0x01FF4820#32) = none) ∧
    (P.regName (targetOf 0x014B0020#32) = some (bytes "$t3") ∧ P.regName (destOf 0x014B0020#32) = none) ∧
    P.regName (destOf 0x014B4820#32) = some (bytes "$t1") := by decide

/-- T-D13, T-D18, T-D19, T-D10 and T-D12. -/
theorem test_witness_IWordsTranslateInOrder :
    let P := Params.default
    (opcodeOf 0xFFFFFFFF#32 ≠ 0#6 ∧ P.iByOp (opcodeOf 0xFFFFFFFF#32) = none) ∧
    (P.iByOp (opcodeOf 0x8C090004#32) = some .lw ∧ P.regName (sourceOf 0x8C090004#32) = none) ∧
    (P.regName (sourceOf 0x8E1F0004#32) = some (bytes "$s0") ∧ P.regName (targetOf 0x8E1F0004#32) = none) ∧
    P.regName (targetOf 0x8E09FFFC#32) = some (bytes "$t1") ∧
    (P.iByOp (opcodeOf 0x1211FFFF#32) = some .beq ∧ P.regName (sourceOf 0x1211FFFF#32) = some (bytes "$s0") ∧
      P.regName (targetOf 0x1211FFFF#32) = some (bytes "$s1")) := by decide

/-- Opcodes 1, 3, 6 and 63, and functions 31 and 33. -/
theorem test_witness_OtherCodesUnknownByDefault :
    (opcodeOf 0x04000000#32 ∉ [0#6, 4#6, 5#6, 35#6, 43#6] ∧ opcodeOf 0x0C000000#32 ∉ [0#6, 4#6, 5#6, 35#6, 43#6] ∧
      opcodeOf 0x18000000#32 ∉ [0#6, 4#6, 5#6, 35#6, 43#6] ∧ opcodeOf 0xFC000000#32 ∉ [0#6, 4#6, 5#6, 35#6, 43#6]) ∧
    (opcodeOf 0x014B481F#32 = 0#6 ∧ functOf 0x014B481F#32 ≠ 32#6) ∧
    (opcodeOf 0x014B4821#32 = 0#6 ∧ functOf 0x014B4821#32 ≠ 32#6) := by decide

theorem test_witness_AddCompletes :
    (decoding 0x014B4820#32).turn = .decode 0x014B4820#32 ∧ State.reset.params.regName 9#5 = some (bytes "$t1") ∧
    State.reset.params.regName 10#5 = some (bytes "$t2") ∧ State.reset.params.regName 11#5 = some (bytes "$t3") ∧
    (encoding "add $t1, $t2, $t3").turn = .encode (bytes "add $t1, $t2, $t3") := by decide

theorem test_witness_MemInstructionsComplete :
    (decoding 0x8E09FFFC#32).turn = .decode 0x8E09FFFC#32 ∧ (decoding 0x8E09FFFC#32).params.regName 16#5 = some (bytes "$s0") ∧
    (decoding 0x8E09FFFC#32).params.regName 9#5 = some (bytes "$t1") ∧
    (encoding "lw $t1, -4($s0)").turn = .encode (bytes "lw $t1, -4($s0)") := by decide

theorem test_witness_BranchInstructionsComplete :
    (decoding 0x12110064#32).turn = .decode 0x12110064#32 ∧ (decoding 0x12110064#32).params.regName 16#5 = some (bytes "$s0") ∧
    (decoding 0x12110064#32).params.regName 17#5 = some (bytes "$s1") ∧
    (encoding "beq $s0, $s1, 100").turn = .encode (bytes "beq $s0, $s1, 100") := by decide

/-- The boundary indices: 7 and 24 have no name, 8 and 23 have one. -/
theorem test_witness_UnnamedRegisterReported :
    (decoding 0#32).turn = .decode 0#32 ∧ (decoding 0#32).params.regName 7#5 = none ∧ (decoding 0#32).params.regName 24#5 = none ∧
    (decoding 0#32).params.regName 8#5 = some (bytes "$t0") ∧ (decoding 0#32).params.regName 23#5 = some (bytes "$s7") := by decide

theorem test_witness_InstructionFrame :
    (∃ s', exec (.add 9 10 11) busy = .next s') ∧ busy.turn = .decode 0x014B4822#32 ∧
    (∃ s', exec (.sw 9 4 16) (encoding "x") = .next s') ∧ (encoding "x").turn = .encode (bytes "x") ∧
    (∃ s', exec (.lw 9 4 16) overlongFirst = .next s') ∧ overlongFirst.turn = .encode (bytes "add $t1, $t2, $t3") ∧
    (∃ s', exec (.bne 9 16 4) State.reset = .next s') ∧ State.reset.turn = .idle ∧
    (∃ s', exec (.beq 9 16 4) overlongOnly = .next s') ∧ overlongOnly.turn = .overlong (bytes "add  $t1, $t2, $t3") :=
  ⟨⟨_, rfl⟩, by decide, ⟨_, rfl⟩, by decide, ⟨_, rfl⟩, by decide, ⟨_, rfl⟩, by decide, ⟨_, rfl⟩, by decide⟩

theorem test_witness_StepRunsDecodedInstruction :
    (decoding 0x014B4820#32).params.lawful = true ∧ (decoding 0x014B4820#32).turn = .decode 0x014B4820#32 ∧
    decodeWord (decoding 0x014B4820#32).params 0x014B4820#32 = .ok (.instr (.add 9 10 11)) ∧
    (encoding "bne $t2, $t3, 32767").turn = .encode (bytes "bne $t2, $t3, 32767") ∧
    parseLine (encoding "").params (bytes "bne $t2, $t3, 32767") = .ok (some (.instr (.bne 10 11 32767))) := by decide

theorem test_witness_StepAnswersDecoder : busy.params.lawful = true ∧ busy.turn = .decode 0x014B4822#32 := by decide

/-- A line of exactly `MaxLineLen` bytes, alone and behind a longer one. -/
theorem test_witness_StepAnswersEncoder :
    let line := bytes "add $t1, $t2, $t3"
    (other.lawful = true ∧ lineFits other line = true) ∧
    ({ busy with dec := Port.idle }.dec.requests = [] ∧
      { busy with dec := Port.idle }.enc.requests = [] ++ line :: [bytes "# a comment line", bytes "lw $t1, 4$s0"]) ∧
    (overlongFirst.dec.requests = [] ∧
      overlongFirst.enc.requests = [bytes "add  $t1, $t2, $t3"] ++ line :: [bytes "add $t1, $t2, $t3 "] ∧
      ∀ l ∈ [bytes "add  $t1, $t2, $t3"], lineFits overlongFirst.params l = false) := by decide

theorem test_witness_StepFramesOrIdles :
    let s : State := { busy with dec := Port.idle, enc := Port.idle }
    (s.params.lawful = true ∧ s.turn = .frame (.byteStream [0x01#8]) ∧
      frame (.byteStream [0x01#8]) = .error (invalidWordLength 1)) ∧
    ((State.reset.presentStream (.byteStream [0x01#8, 0x4B#8, 0x48#8, 0x20#8])).turn =
        .frame (.byteStream [0x01#8, 0x4B#8, 0x48#8, 0x20#8]) ∧
      frame (.byteStream [0x01#8, 0x4B#8, 0x48#8, 0x20#8]) = .words [0x014B4820#32]) ∧
    (State.reset.params.lawful = true ∧ State.reset.turn = .idle) := by decide

theorem test_witness_FetchWordRunsNext :
    busy.params.lawful = true ∧ decoded (step (busy.withFetchWord 32 0x014B4820)) =
      some [.error ⟨.unknownOpcode, .field 63⟩, .text (bytes "add $t1, $t2, $t3")] := by decide

/-- Unlawful tables, and a waiting line one byte longer than `MaxLineLen`. -/
theorem test_witness_StepRefusesOnlyThese :
    { State.reset with params := unlawful }.params.lawful = false ∧
    overlongOnly.params.lawful = true ∧ overlongOnly.dec.requests = [] ∧ overlongOnly.framer.requests = [] ∧
    overlongOnly.enc.requests ≠ [] ∧ overlongOnly.params.maxLineLen = some 17 ∧
    (∀ line ∈ overlongOnly.enc.requests, 17 < line.length) ∧ step overlongOnly = .refused .lineTooLong :=
  ⟨by decide, by decide, by decide, by decide, by decide, by decide, by decide, rfl⟩

theorem test_witness_ResultFromRequestAlone :
    (busy.params = { busy with enc := Port.idle }.params ∧ busy.turn = { busy with enc := Port.idle }.turn ∧
      busy.turn = .decode 0x014B4822#32) ∧
    (∃ s', step busy = .next s') ∧ (∃ t', step { busy with enc := Port.idle } = .next t') ∧
    { busy with dec := Port.idle }.turn = .encode (bytes "add $t1, $t2, $t3") ∧
    { busy with dec := Port.idle, enc := Port.idle }.turn = .frame (.byteStream [0x01#8]) :=
  ⟨by decide, ⟨_, rfl⟩, ⟨_, rfl⟩, by decide, by decide⟩

theorem test_witness_StepKeepsTablesAndResults : ∃ s', step busy = .next s' := ⟨_, rfl⟩

theorem test_witness_StepIsOneTransaction :
    (∃ s', step busy = .next s') ∧ busy.turn ≠ .idle ∧ (∃ s', step State.reset = .next s') ∧ State.reset.turn = .idle :=
  ⟨⟨_, rfl⟩, by decide, ⟨_, rfl⟩, by decide⟩

theorem test_witness_StepKeepsInv : busy.Inv ∧ ∃ s', step busy = .next s' := by
  refine ⟨?_, _, rfl⟩
  unfold State.Inv
  decide

theorem test_witness_SafeStepAnswers : busy.Safe ∧ busy.turn ≠ .idle := by
  unfold State.Safe
  decide

theorem test_witness_ResetPortsUnobservable :
    busy.params.lawful = true ∧ lineFits busy.params (bytes "add $t1, $t2, $t3") = true := by decide

theorem test_witness_BlankLinesGiveEmpty :
    (∀ c ∈ bytes "   \t \r\n", Params.default.isWs c = true) ∧ Params.default.isWs 0x20#8 = true ∧
    (∀ line ∈ [bytes "# only", bytes "add $t1, $t2, $t3", bytes ""], encError? (encodeLine Params.default line) = none) := by
  decide

theorem test_witness_CommentDiscarded :
    Params.default.commentChar ∉ bytes "add $t1, $t2" ∧ Params.default.commentChar ∉ bytes "" := by decide

theorem test_witness_TokensAreMaximalRuns :
    Params.default.isWs 0x20#8 = true ∧ bytes "$t1," ≠ [] ∧ (∀ c ∈ bytes "$t1,", Params.default.isWs c = false) ∧
    bytes "add" ∈ tokens Params.default (bytes "add  $t1,") ∧
    (∀ c ∈ ascii ['a', 'd', '$', 't', '1', '2', '3', ','], Params.default.isWs c = false) := by decide

/-- V7, T-L10 and T-L11. -/
theorem test_witness_MnemonicCheckedFirst :
    ∀ m ∈ [bytes "addx", bytes "ADD", bytes "add,"],
      tokens Params.default (prepare Params.default (m ++ bytes " $t1")) = [m, bytes "$t1"] ∧
      (∀ r ∈ Params.default.rTable, r.mnemonic ≠ m) ∧ ∀ k ∈ IMnemonic.all, k.spelling ≠ m := by decide

theorem test_witness_RLinesCheckedInOrder :
    let P := Params.default
    (P.lawful = true ∧ P.lookup (bytes "add") = some (.r 32#6)) ∧
    (tokens P (prepare P (bytes "add $t1, $t2")) = [bytes "add", bytes "$t1,", bytes "$t2"]) ∧
    (tokens P (prepare P (bytes "add $t1, $T2, $t3")) = [bytes "add", bytes "$t1,", bytes "$T2,", bytes "$t3"]) ∧
    P.regIndex (stripSep (bytes "$t1,")) = some 9#5 ∧ P.regIndex (stripSep (bytes "$T2,")) = none ∧
    P.regIndex (stripSep (bytes "$s7")) = some 23#5 ∧ P.regIndex (stripSep (bytes ",")) = none := by decide

theorem test_witness_MemLinesCheckedInOrder :
    let P := Params.default
    (P.lawful = true ∧ P.lookup (bytes "lw") = some (.i .lw) ∧ IMnemonic.lw.shape = .memory) ∧
    (tokens P (prepare P (bytes "lw $t1,4($s0)")) = [bytes "lw", bytes "$t1,4($s0)"]) ∧
    (tokens P (prepare P (bytes "lw $t1, -32768($s0),")) = [bytes "lw", bytes "$t1,", bytes "-32768($s0),"]) ∧
    splitMem (bytes "l") (bytes "4$s0") = .error ⟨.malformedOperands, .text (bytes "l")⟩ ∧
    splitMem (bytes "l") (stripSep (bytes "-32768($s0),")) = .ok (bytes "-32768", bytes "$s0") ∧
    parseOffset (bytes "") = .error ⟨.invalidOffset, .text (bytes "")⟩ ∧ parseOffset (bytes "-32768") = .ok (-32768) ∧
    P.regIndex (bytes "") = none ∧ P.regIndex (bytes "$s0") = some 16#5 ∧
    P.regIndex (stripSep (bytes "$zero,")) = none ∧ P.regIndex (stripSep (bytes "$t1,")) = some 9#5 := by decide

theorem test_witness_BranchLinesCheckedInOrder :
    let P := Params.default
    (P.lawful = true ∧ P.lookup (bytes "beq") = some (.i .beq) ∧ IMnemonic.beq.shape = .branch) ∧
    (tokens P (prepare P (bytes "beq $s0, $s1")) = [bytes "beq", bytes "$s0,", bytes "$s1"]) ∧
    (tokens P (prepare P (bytes "beq $s0, $s1, 32767,")) = [bytes "beq", bytes "$s0,", bytes "$s1,", bytes "32767,"]) ∧
    parseOffset (stripSep (bytes "loop")) = .error ⟨.invalidOffset, .text (bytes "loop")⟩ ∧
    parseOffset (stripSep (bytes "32767,")) = .ok 32767 ∧ P.regIndex (stripSep (bytes "$bad,")) = none ∧
    P.regIndex (stripSep (bytes "$s0,")) = some 16#5 ∧ P.regIndex (stripSep (bytes "$s1,")) = some 17#5 := by decide

theorem test_witness_OffsetGrammar :
    digitsValue (bytes "99999") = some 99999 ∧ isDigit 0x30#8 = true ∧ isDigit 0x39#8 = true ∧ isDigit 0x2F#8 = false ∧
    isDigit 0x3A#8 = false := by decide

theorem test_witness_OffsetRangeChecked :
    offsetValue (bytes "32767") = some 32767 ∧ offsetValue (bytes "+32768") = some 32768 ∧
    offsetValue (bytes "-32768") = some (-32768) ∧ offsetValue (bytes "-32769") = some (-32769) := by decide

theorem test_witness_MemOperandSplit :
    splitMem [] (bytes "4($s0)") = .ok (bytes "4", bytes "$s0") ∧ splitMem [] (bytes "()") = .ok ([], []) ∧
    splitMem [] (bytes "(4)$s0") = .error ⟨.malformedOperands, .text []⟩ := by decide

theorem test_witness_AddLineEncodes :
    Params.default.lawful = true ∧ Params.default.plainText = true ∧ other.lawful = true ∧ other.plainText = true ∧
    other.regIndex (bytes "$t0") = some 8#5 ∧ other.regIndex (bytes "$t7") = some 15#5 ∧
    other.regIndex (bytes "$s7") = some 23#5 := by decide

theorem test_witness_MemLineEncodes :
    other.lawful = true ∧ other.plainText = true ∧ IMnemonic.lw.shape = .memory ∧ IMnemonic.sw.shape = .memory ∧
    other.regIndex (bytes "$t0") = some 8#5 ∧ other.regIndex (bytes "$s7") = some 23#5 ∧ OffsetInRange (-32768) ∧
    OffsetInRange 32767 := by decide

theorem test_witness_BranchLineEncodes :
    other.lawful = true ∧ other.plainText = true ∧ IMnemonic.beq.shape = .branch ∧ IMnemonic.bne.shape = .branch ∧
    other.regIndex (bytes "$t0") = some 8#5 ∧ other.regIndex (bytes "$s7") = some 23#5 ∧ OffsetInRange (-32768) ∧
    OffsetInRange 32767 := by decide

theorem test_witness_EncodedLineRoundTrips :
    Params.default.lawful = true ∧ Params.default.plainText = true ∧
    encodeLine Params.default (bytes "lw $s7, +0010($t7),") = .word 0x8DF7000A#32 := by decide

/-- T-D3 (an R word with shift amount 31), T-D1 and T-D11. -/
theorem test_witness_DecodedWordRoundTrips :
    Params.default.lawful = true ∧ Params.default.plainText = true ∧
    decodeText Params.default 0x014B4FE0#32 = .text (bytes "add $t1, $t2, $t3") ∧ shamtOf 0x014B4FE0#32 = 31#5 ∧
    decodeText Params.default 0x014B4820#32 = .text (bytes "add $t1, $t2, $t3") ∧ shamtOf 0x014B4820#32 = 0#5 ∧
    decodeText Params.default 0xAE177FFF#32 = .text (bytes "sw $s7, 32767($s0)") := by decide

/-- A word of the row `sub -> 34` with shift amount 31. -/
theorem test_witness_FurtherRowsTranslateAsAdd :
    other.lawful = true ∧ other.plainText = true ∧ other.rFunct (bytes "sub") = some 34#6 ∧
    other.regIndex (bytes "$s0") = some 16#5 ∧ other.regIndex (bytes "$s1") = some 17#5 ∧
    other.regIndex (bytes "$s2") = some 18#5 ∧ opcodeOf 0x023287E2#32 = 0#6 ∧ functOf 0x023287E2#32 = 34#6 ∧
    sourceOf 0x023287E2#32 = 17#5 ∧ targetOf 0x023287E2#32 = 18#5 ∧ destOf 0x023287E2#32 = 16#5 := by decide

theorem test_witness_WordBitsMsbFirst : Params.default.lawful = true ∧ Params.default.plainText = true := by decide

theorem test_witness_ByteStreamFraming :
    let b : Bytes := [0x8E#8, 0x09#8, 0x00#8, 0x04#8]
    [0x8E090004#32] ≠ ([] : List Word) ∧ b ≠ [] ∧ b.length % 4 = 0 ∧ (b ++ [0x12#8]).length % 4 ≠ 0 ∧
    (b.take 3).length % 4 ≠ 0 := by decide

theorem test_witness_BitStringFraming :
    let t : Bytes := bytes "10001110000010011111111111111100"
    [0x8E09FFFC#32] ≠ ([] : List Word) ∧ t ≠ [] ∧ t.length % 32 = 0 ∧ (∀ c ∈ t, c = 0x30#8 ∨ c = 0x31#8) ∧
    (t ++ [0x30#8]).length % 32 ≠ 0 ∧ (∃ c ∈ t ++ [0x32#8], c ≠ 0x30#8 ∧ c ≠ 0x31#8) := by decide

theorem test_witness_DecoderBatchInOrder : busy.params.lawful = true ∧ busy.dec.requests ≠ [] := by decide

theorem test_witness_EncoderBatchInOrder :
    (overlongFirst.params.lawful = true ∧ overlongFirst.dec.requests = [] ∧
      (overlongFirst.enc.requests.filter (lineFits overlongFirst.params)).length = 1) ∧
    { busy with dec := Port.idle }.Safe ∧ { busy with dec := Port.idle }.dec.requests = [] := by
  unfold State.Safe
  decide

theorem test_witness_SerialisedStreamDecoded :
    State.reset.params.lawful = true ∧ State.reset.turn = .idle ∧ [0x014B4820#32, 0xFFFFFFFF#32] ≠ ([] : List Word) := by decide

theorem test_witness_CleanBatchCommitted :
    (encReport .atomic [.empty, .word 0x014B4820#32]).status = .zero ∧
    (decReport .incremental [.words [0x014B4820#32]] [.text (bytes "add $t1, $t2, $t3")]).status = .zero ∧
    (decReport .atomic [.error emptyInput] []).status = .nonZero := by decide

end Sys2Proof.Machine.Tests
end

section
/-! PROOF. The lookups over lawful tables (00_scope R13): inverse to each other, over disjoint namespaces, with the entries the
source fixes. -/

namespace Sys2Proof

/-- `RegTable` is 16 pairs, distinct in both columns (R22). -/
theorem regTable_bijective {P : Params} (h : P.lawful = true) :
    P.regTable.length = 16 ∧ (P.regTable.map (·.name)).Nodup ∧ (P.regTable.map (·.index)).Nodup := by
  have hl := (lawful_parts h).1
  simp only [Params.lawfulReg, Bool.and_eq_true, beq_iff_eq, allDistinct_iff_nodup] at hl
  obtain ⟨⟨⟨⟨⟨⟨⟨⟨⟨⟨hlen, hname⟩, hindex⟩, -⟩, -⟩, -⟩, -⟩, -⟩, -⟩, -⟩, -⟩ := hl
  exact ⟨hlen, hname, hindex⟩

/-- The three register entries whose indices the source's examples fix (R22). -/
theorem regIndex_t1_t2_t3 {P : Params} (h : P.lawful = true) :
    P.regIndex (ascii ['$', 't', '1']) = some 9#5 ∧ P.regIndex (ascii ['$', 't', '2']) = some 10#5 ∧
    P.regIndex (ascii ['$', 't', '3']) = some 11#5 := by
  have hl := (lawful_parts h).1
  simp only [Params.lawfulReg, Bool.and_eq_true, beq_iff_eq] at hl
  obtain ⟨⟨⟨⟨⟨⟨⟨⟨-, h1⟩, h2⟩, h3⟩, -⟩, -⟩, -⟩, -⟩, -⟩ := hl
  exact ⟨h1, h2, h3⟩

/-- The namespaces of the two tables are disjoint: an R mnemonic is spelled as no I mnemonic (R26). -/
theorem ne_spelling_of_lookup_r {P : Params} (h : P.lawful = true) {m : Bytes} {f : Funct}
    (hm : P.lookup m = some (.r f)) (k : IMnemonic) : m ≠ k.spelling := by
  rintro rfl
  rw [lookup_r_iff, rFunct_iMnemonic h k] at hm
  cases hm

/-- Settles O1: each inverse law is the law of its table, and R26 keeps an R mnemonic apart from every I spelling. -/
theorem lookupsAreInverse : Obligations.LookupsAreInverse := by
  unfold Obligations.LookupsAreInverse
  intro P h
  obtain ⟨hlen, hname, hindex⟩ := regTable_bijective h
  obtain ⟨ht1, ht2, ht3⟩ := regIndex_t1_t2_t3 h
  have disjoint (m : Bytes) (f : Funct) (k : IMnemonic) (hm : P.lookup m = some (.r f)) :
      P.lookup m ≠ some (.i k) ∧ m ≠ k.spelling :=
    have hne := ne_spelling_of_lookup_r h hm k
    ⟨fun hi => hne ((lookup_i_iff h m k).mp hi), hne⟩
  have iEntry (k : IMnemonic) : P.lookup k.spelling = some (.i k) ∧ P.iTable.opcode k ≠ 0#6 :=
    ⟨(lookup_i_iff h _ k).mpr rfl, opcode_ne_zero h k⟩
  have addEntry : P.lookup kwAdd = some (.r addFunct) := (lookup_r_iff P kwAdd addFunct).mpr (rFunct_add h)
  exact ⟨regName_iff_regIndex h, rByFunct_iff_rFunct h, iByOp_iff h, disjoint, iEntry, addEntry, hlen, hname, hindex,
    (regName_iff_regIndex h _ _).mpr ht1, (regName_iff_regIndex h _ _).mpr ht2, (regName_iff_regIndex h _ _).mpr ht3⟩

end Sys2Proof
end

section
/-! PROOF. The state (10_state): what reset holds, what the instructions and the steps leave unchanged, what the result of a
transaction depends on, and where there is no transition. -/

namespace Sys2Proof.Machine

/-! ### Reset (R32) -/

/-- The default tables meet the laws of R22 to R27, so no step from reset is refused for them (R231). -/
theorem reset_lawful : State.reset.params.lawful = true := by decide

/-- Settles O30: the default tables are lawful, and no port holds a result or a line that could break the rest. -/
theorem resetMeetsInv : Obligations.ResetMeetsInv := by
  unfold Obligations.ResetMeetsInv
  exact ⟨⟨reset_lawful, by simp [State.reset], by simp [State.reset], by simp [State.reset]⟩,
    ⟨reset_lawful, by simp [State.reset]⟩⟩

/-- Settles O32: the rows of `RegTable` are compared with the two runs of eight registers, the rest is read off
`State.reset`. -/
theorem resetContents : Obligations.ResetContents := by
  unfold Obligations.ResetContents
  exact ⟨rfl, rfl, rfl, by decide, rfl, rfl, rfl, rfl, rfl, reset_lawful⟩

/-! ### The frame of an instruction (R20, R29, R47) -/

/-- Everything an instruction can do: the shared completion, with its own word and its own text. -/
theorem exec_cases {i : Instr} {s s' : State} (h : exec i s = .next s') :
    (∃ w, s.turn = .decode w ∧ s' = s.answerDec (renderInstr s.params i)) ∨
    (∃ line, s.turn = .encode line ∧ s' = s.answerEnc (.word (encode s.params i))) ∨
    ((∀ w, s.turn ≠ .decode w) ∧ (∀ line, s.turn ≠ .encode line) ∧ s' = s) :=
  translate_cases ((exec_eq_translate i s).symm.trans h)

/-- The Decoder's answer takes its own request off the front and leaves the others. -/
theorem answerDec_takes_request {s : State} {w : Word} (h : s.turn = .decode w) (r : DecResult) :
    s.dec.requests = w :: (s.answerDec r).dec.requests := by
  obtain ⟨rest, hrest⟩ := (s.turn_decode_iff w).mp h
  simp [hrest]

/-- The Encoder's answer takes its own line from behind overlong ones and leaves the others in their places. -/
theorem answerEnc_takes_request {s : State} {line : Bytes} (h : s.turn = .encode line) (r : EncResult) :
    ∃ pre rest, s.enc.requests = pre ++ line :: rest ∧ (s.answerEnc r).enc.requests = pre ++ rest ∧
      ∀ l ∈ pre, lineFits s.params l = false := by
  obtain ⟨-, hfits, pre, rest, hsplit, hpre⟩ := (s.turn_encode_iff line).mp h
  exact ⟨pre, rest, hsplit, by rw [State.answerEnc_of_split hsplit hpre hfits], hpre⟩

/-- Settles O19: one case per kind of completion; the clauses about the other turns are then about no state. -/
theorem instructionFrame : Obligations.InstructionFrame := by
  unfold Obligations.InstructionFrame
  intro i s s' h
  obtain ⟨w, ht, rfl⟩ | ⟨line, ht, rfl⟩ | ⟨hdec, henc, rfl⟩ := exec_cases h
  · refine ⟨rfl, rfl, fun v hv => ?_, fun l hl => ?_, fun hne _ => absurd ht (hne w)⟩
    · exact ⟨rfl, answerDec_takes_request hv _, _, rfl⟩
    · simp [ht] at hl
  · refine ⟨rfl, rfl, fun v hv => ?_, fun l hl => ?_, fun _ hne => absurd ht (hne line)⟩
    · simp [ht] at hv
    · exact ⟨rfl, answerEnc_takes_request hl _, _, rfl⟩
  · exact ⟨rfl, rfl, fun w hw => absurd hw (hdec w), fun l hl => absurd hl (henc l), fun _ _ => rfl⟩

/-! ### The step, turn by turn (R20, R48) -/

/-- A step that answers in the Decoder's turn delivers `Decode(w)`. -/
theorem step_next_of_decode {s s' : State} (h : step s = .next s') {w : Word} (ht : s.turn = .decode w) :
    s' = s.answerDec (decodeText s.params w) := by
  obtain ⟨hl, -⟩ := step_cases h
  rw [step_eq hl, ht] at h
  exact (Host.Outcome.next.inj h).symm

/-- A step that answers in the Encoder's turn delivers `Encode(line)`. -/
theorem step_next_of_encode {s s' : State} (h : step s = .next s') {line : Bytes} (ht : s.turn = .encode line) :
    s' = s.answerEnc (encodeLine s.params line) := by
  obtain ⟨hl, -⟩ := step_cases h
  rw [step_eq hl, ht] at h
  exact (Host.Outcome.next.inj h).symm

/-- A step that answers in the framing adapters' turn delivers the framing of the stream. -/
theorem step_next_of_frame {s s' : State} (h : step s = .next s') {x : Stream} (ht : s.turn = .frame x) :
    s' = s.answerFrame (frame x) := by
  obtain ⟨hl, -⟩ := step_cases h
  rw [step_eq hl, ht] at h
  exact (Host.Outcome.next.inj h).symm

/-- Settles O26: in each turn the result is a function of the request and the parameters, which the two states share. -/
theorem resultFromRequestAlone : Obligations.ResultFromRequestAlone := by
  unfold Obligations.ResultFromRequestAlone
  intro s t s' t' hparams hturn hs ht
  refine ⟨fun w hw => ⟨decodeText s.params w, ?_⟩, fun line hline => ⟨encodeLine s.params line, ?_⟩,
    fun x hx => ⟨frame x, ?_⟩⟩
  · rw [step_next_of_decode hs hw, step_next_of_decode ht (hturn ▸ hw), hparams]
    exact ⟨rfl, rfl⟩
  · rw [step_next_of_encode hs hline, step_next_of_encode ht (hturn ▸ hline), hparams]
    exact ⟨rfl, rfl⟩
  · rw [step_next_of_frame hs hx, step_next_of_frame ht (hturn ▸ hx)]
    simp

/-- Settles O27: each answer leaves the parameters and two of the result lists alone and appends to the third. -/
theorem stepKeepsTablesAndResults : Obligations.StepKeepsTablesAndResults := by
  unfold Obligations.StepKeepsTablesAndResults
  intro s s' h
  obtain ⟨-, ⟨w, -, rfl⟩ | ⟨line, -, rfl⟩ | ⟨x, -, rfl⟩ | ⟨-, rfl⟩⟩ := step_cases h
  · exact ⟨rfl, List.prefix_rfl, List.prefix_append .., List.prefix_rfl⟩
  · exact ⟨rfl, List.prefix_append .., List.prefix_rfl, List.prefix_rfl⟩
  · simp
  · exact ⟨rfl, List.prefix_rfl, List.prefix_rfl, List.prefix_rfl⟩

/-! ### A word placed as the next request (R31, R140) -/

/-- The bits of a word, placed as the next request, are that word (log 13). -/
theorem withFetchWord_toNat (s : State) (w : Word) : s.withFetchWord 32 w.toNat = presentNext w s := by
  rw [State.withFetchWord, Nat.mod_eq_of_lt w.isLt, BitVec.ofNat_toNat, BitVec.setWidth_eq]

/-- A word placed before those already waiting is the transaction in progress. -/
theorem presentNext_turn (w : Word) (s : State) : (presentNext w s).turn = .decode w :=
  (State.turn_decode_iff _ w).mpr ⟨s.dec.requests, rfl⟩

/-- Settles O24: the word is in progress, so the step is the Decoder's answer to it, which takes it off again. -/
theorem fetchWordRunsNext : Obligations.FetchWordRunsNext := by
  unfold Obligations.FetchWordRunsNext
  intro s w hl
  have hl' : (presentNext w s).params.lawful = true := hl
  rw [withFetchWord_toNat, step_eq hl', presentNext_turn]
  exact ⟨rfl, rfl⟩

/-! ### Where there is no transition (R30, R231) -/

/-- A line is overlong exactly when `MaxLineLen` is set and the line is longer (R30). -/
theorem lineFits_eq_false_iff (P : Params) (line : Bytes) :
    lineFits P line = false ↔ ∃ n, P.maxLineLen = some n ∧ n < line.length := by
  cases h : P.maxLineLen <;> simp [lineFits, h]

/-- Under lawful tables a step is refused exactly in the turn that has no transition. -/
theorem step_refused_iff {s : State} (hl : s.params.lawful = true) (r : Refusal) :
    step s = .refused r ↔ r = .lineTooLong ∧ ∃ line, s.turn = .overlong line := by
  rw [step_eq hl]
  cases s.turn <;> simp [eq_comm]

/-- Settles O25: the turn without a transition is the one with nothing but overlong lines waiting, the first of them being in
progress. -/
theorem stepRefusesOnlyThese : Obligations.StepRefusesOnlyThese := by
  unfold Obligations.StepRefusesOnlyThese
  refine ⟨fun s => step_unlawful, ?_, ?_⟩
  · intro s n hl hdec hframer henc hn hlong
    obtain ⟨line, rest, hcons⟩ := List.exists_cons_of_ne_nil henc
    have hoverlong (l : Bytes) (hm : l ∈ s.enc.requests) : lineFits s.params l = false :=
      (lineFits_eq_false_iff _ l).mpr ⟨n, hn, hlong l hm⟩
    exact (step_refused_iff hl _).mpr
      ⟨rfl, line, (s.turn_overlong_iff line).mpr ⟨hdec, hframer, hoverlong, rest, hcons⟩⟩
  · intro s r hl h
    obtain ⟨hr, line, ht⟩ := (step_refused_iff hl r).mp h
    obtain ⟨hdec, hframer, hoverlong, rest, hcons⟩ := (s.turn_overlong_iff line).mp ht
    have hline : line ∈ s.enc.requests := by simp [hcons]
    obtain ⟨n, hn, -⟩ := (lineFits_eq_false_iff _ line).mp (hoverlong line hline)
    refine ⟨hr, hdec, hframer, List.ne_nil_of_mem hline, n, hn, fun l hm => ?_⟩
    obtain ⟨m, hm', hlt⟩ := (lineFits_eq_false_iff _ l).mp (hoverlong l hm)
    cases hn.symm.trans hm'
    exact hlt

end Sys2Proof.Machine
end

section
/-! PROOF. Words as bytes and as bit strings, and their framing (20_memory R41 to R46): each form is inverted on the streams it
gives, and every other stream is rejected whole. -/

namespace Sys2Proof

/-! ### Bytes of a stream of words (R41) -/

@[simp] theorem streamBytes_nil : streamBytes [] = [] := rfl

@[simp] theorem streamBytes_cons (w : Word) (ws : List Word) : streamBytes (w :: ws) = wordBytes w ++ streamBytes ws := rfl

/-- The four bytes of a word are the base-256 digits of its value. -/
theorem wordBytes_value (w : Word) :
    0x1000000 * (w.extractLsb' 24 8).toNat + 0x10000 * (w.extractLsb' 16 8).toNat + 0x100 * (w.extractLsb' 8 8).toNat
      + (w.extractLsb' 0 8).toNat = w.toNat := by
  have hw := w.isLt
  simp only [BitVec.extractLsb'_toNat, Nat.shiftRight_eq_div_pow]
  omega

/-- Settles O52: the bytes of one word are the definition, their value is the word's, and `flatMap` puts nothing between. -/
theorem wordsSerialiseBigEndian : Obligations.WordsSerialiseBigEndian := by
  unfold Obligations.WordsSerialiseBigEndian
  exact ⟨fun w => ⟨rfl, wordBytes_value w⟩, streamBytes_nil, fun us vs => List.flatMap_append, streamBytes_length⟩

/-! ### Framing of a byte stream (R44) -/

/-- The bytes of a word are one complete group, read as the word. -/
theorem wordsOfBytes_wordBytes (w : Word) (rest : Bytes) : wordsOfBytes (wordBytes w ++ rest) = w :: wordsOfBytes rest := by
  simp only [wordBytes, List.cons_append, List.nil_append, wordsOfBytes, append_wordBytes]

/-- Reading the bytes of a stream of words gives the words. -/
theorem wordsOfBytes_streamBytes (ws : List Word) : wordsOfBytes (streamBytes ws) = ws := by
  induction ws with
  | nil => rfl
  | cons w ws ih => rw [streamBytes_cons, wordsOfBytes_wordBytes, ih]

/-- The words read from whole groups serialise to the stream they were read from. -/
theorem streamBytes_wordsOfBytes (b : Bytes) (h : b.length % 4 = 0) : streamBytes (wordsOfBytes b) = b := by
  induction b using wordsOfBytes.induct with
  | case1 a b c d rest ih =>
    have hrest : rest.length % 4 = 0 := by
      simp only [List.length_cons] at h
      omega
    rw [wordsOfBytes, streamBytes_cons, wordBytes_append, ih hrest]
    rfl
  | case2 b hshort =>
    match b, hshort with
    | [], _ => rfl
    | [_], _ | [_, _], _ | [_, _, _], _ => simp at h
    | a :: b :: c :: d :: rest, hshort => exact absurd rfl (hshort a b c d rest)

/-- A stream of whole groups, not empty, is framed (R44). -/
theorem frame_byteStream_words {b : Bytes} (hne : b ≠ []) (h : b.length % 4 = 0) :
    frame (.byteStream b) = .words (wordsOfBytes b) := by
  simp [frame, frameBytes, hne, h]

/-- A stream with an incomplete last group is rejected whole, with its length (R44, D16). -/
theorem frame_byteStream_error {b : Bytes} (h : b.length % 4 ≠ 0) :
    frame (.byteStream b) = .error (invalidWordLength b.length) := by
  have hne : b ≠ [] := by rintro rfl; exact h rfl
  simp [frame, frameBytes, hne, h]

/-- The bytes of at least one word are framed as the words. -/
theorem frame_streamBytes {ws : List Word} (hne : ws ≠ []) : frame (.byteStream (streamBytes ws)) = .words ws := by
  have hpos := List.length_pos_iff.mpr hne
  have hlen := streamBytes_length ws
  rw [frame_byteStream_words (List.ne_nil_of_length_pos (by omega)) (by omega), wordsOfBytes_streamBytes]

/-- Settles O54: reading and serialising are inverse on whole groups, and the length alone decides the rejections. -/
theorem byteStreamFraming : Obligations.ByteStreamFraming := by
  unfold Obligations.ByteStreamFraming
  exact ⟨fun ws => frame_streamBytes, fun b hne h => ⟨_, frame_byteStream_words hne h, streamBytes_wordsOfBytes b h⟩, rfl,
    fun b => frame_byteStream_error⟩

/-! ### Bit strings of a stream of words (R42, R43) -/

@[simp] theorem streamBits_nil : streamBits [] = [] := rfl

@[simp] theorem streamBits_cons (w : Word) (ws : List Word) : streamBits (w :: ws) = wordBits w ++ streamBits ws := rfl

theorem streamBits_length (ws : List Word) : (streamBits ws).length = 32 * ws.length := by
  induction ws with
  | nil => rfl
  | cons w ws ih => rw [streamBits_cons, List.length_append, wordBits_length, ih, List.length_cons]; omega

/-- Every character of a rendered stream is a binary digit (R42). -/
theorem digit_of_mem_streamBits {ws : List Word} {c : Byte} (h : c ∈ streamBits ws) : c = 0x30#8 ∨ c = 0x31#8 := by
  simp only [streamBits, wordBits, List.mem_flatMap, List.mem_map] at h
  obtain ⟨w, -, i, -, rfl⟩ := h
  split
  · exact .inr rfl
  · exact .inl rfl

/-- Position `i` from the left is the digit of `w[31-i]` (R42). -/
theorem wordBits_getElem? (w : Word) {i : Nat} (hi : i < 32) :
    (wordBits w)[i]? = some (if w.getLsbD (31 - i) = false then 0x30#8 else 0x31#8) := by
  simp only [wordBits, List.getElem?_map, List.getElem?_range hi, Option.map_some]
  cases w.getLsbD (31 - i) <;> rfl

/-! ### Framing of a raw bit string (R45) -/

/-- Reading the digits of a stream of words gives the words. -/
theorem wordsOfBits_streamBits (ws : List Word) : wordsOfBits ws.length (streamBits ws) = ws := by
  induction ws with
  | nil => rfl
  | cons w ws ih =>
    have hlen := wordBits_length w
    rw [streamBits_cons, List.length_cons, wordsOfBits, List.take_left' hlen, List.drop_left' hlen, bitsValue_wordBits, ih]

/-- The words read from `n` groups of 32 digits render to the string they were read from. -/
theorem streamBits_wordsOfBits (n : Nat) {t : Bytes} (hlen : t.length = 32 * n) (hd : ∀ c ∈ t, c = 0x30#8 ∨ c = 0x31#8) :
    streamBits (wordsOfBits n t) = t := by
  induction n generalizing t with
  | zero => rw [List.eq_nil_of_length_eq_zero hlen]; rfl
  | succ n ih =>
    have hhead : wordBits (BitVec.ofNat 32 (bitsValue (t.take 32))) = t.take 32 :=
      wordBits_bitsValue _ (by rw [List.length_take]; omega) fun c hc => hd c (List.mem_of_mem_take hc)
    have htail : streamBits (wordsOfBits n (t.drop 32)) = t.drop 32 :=
      ih (by rw [List.length_drop]; omega) fun c hc => hd c (List.mem_of_mem_drop hc)
    rw [wordsOfBits, streamBits_cons, hhead, htail, List.take_append_drop]

/-- A string of whole words' digits, not empty, is framed (R45). -/
theorem frame_bitString_words {t : Bytes} (hne : t ≠ []) (hlen : t.length % 32 = 0)
    (hd : ∀ c ∈ t, c = 0x30#8 ∨ c = 0x31#8) : frame (.bitString t) = .words (wordsOfBits (t.length / 32) t) := by
  have hall : (t.all fun c => c == 0x30#8 || c == 0x31#8) = true := by simpa using hd
  simp [frame, frameBits, hne, hlen, hall]

/-- A length that is no multiple of 32 rejects the string whole (R45). -/
theorem frame_bitString_length_error {t : Bytes} (hlen : t.length % 32 ≠ 0) :
    frame (.bitString t) = .error (invalidWordLength t.length) := by
  have hne : t ≠ [] := by rintro rfl; exact hlen rfl
  simp [frame, frameBits, hne, hlen]

/-- A character that is no binary digit rejects the string whole, with the same error (R45, D17). -/
theorem frame_bitString_char_error {t : Bytes} {c : Byte} (hc : c ∈ t) (h0 : c ≠ 0x30#8) (h1 : c ≠ 0x31#8) :
    frame (.bitString t) = .error (invalidWordLength t.length) := by
  by_cases hlen : t.length % 32 = 0
  · have hne : t ≠ [] := List.ne_nil_of_mem hc
    have hall : (t.all fun c => c == 0x30#8 || c == 0x31#8) = false :=
      List.all_eq_false.mpr ⟨c, hc, by simp [h0, h1]⟩
    simp [frame, frameBits, hne, hlen, hall]
  · exact frame_bitString_length_error hlen

/-- The digits of at least one word are framed as the words. -/
theorem frame_streamBits {ws : List Word} (hne : ws ≠ []) : frame (.bitString (streamBits ws)) = .words ws := by
  have hpos := List.length_pos_iff.mpr hne
  have hlen := streamBits_length ws
  have hcount : (streamBits ws).length / 32 = ws.length := by omega
  rw [frame_bitString_words (List.ne_nil_of_length_pos (by omega)) (by omega) fun c => digit_of_mem_streamBits, hcount,
    wordsOfBits_streamBits]

/-- Settles O55: reading and rendering are inverse on whole words' digits; the length, then the characters decide the
rejections; and both forms are word after word. -/
theorem bitStringFraming : Obligations.BitStringFraming := by
  unfold Obligations.BitStringFraming
  exact ⟨fun ws => frame_streamBits,
    fun t hne hlen hd => ⟨_, frame_bitString_words hne hlen hd, streamBits_wordsOfBits _ (by omega) hd⟩, rfl,
    fun t => frame_bitString_length_error, fun t _ ⟨c, hc, h0, h1⟩ => frame_bitString_char_error hc h0 h1,
    streamBits_nil, streamBits_cons, rfl, fun w ws => rfl⟩

end Sys2Proof
end

section
/-! PROOF. The bit string of a word and R42's example line: a canonical R line reads back as its word. -/

namespace Sys2Proof

/-- A token with no comma at its end resolves as it stands. -/
theorem resolve_stripSep {P : Params} {n : Bytes} {r : RegIdx} (hP : P.lawful = true) (hn : P.regIndex n = some r) :
    resolve P (stripSep n) = .ok r := by
  rw [stripSep_of_last (spells_last (spells_of_regIndex hP hn)), resolve, hn]

/-- A register name followed by the canonical comma resolves to its register. -/
theorem resolve_stripSep_comma {P : Params} {n : Bytes} {r : RegIdx} (hP : P.lawful = true) (hn : P.regIndex n = some r) :
    resolve P (stripSep (n ++ [0x2C#8])) = .ok r := by
  rw [stripSep_comma (spells_last (spells_of_regIndex hP hn)), resolve, hn]

section CanonicalRLine

variable {P : Params} {m d s t : Bytes} {f : Funct} {rd rs rt : RegIdx}

/-- Canonical R text is already prepared. -/
theorem prepare_textR (hp : P.plainText = true) (hm : P.spells m = true) (hd : P.spells d = true) (hs : P.spells s = true)
    (ht : P.spells t = true) : prepare P (textR m d s t) = textR m d s t := by
  have hmid : ∀ c ∈ space ++ d ++ comma ++ s ++ comma, c ≠ P.commentChar := by
    have hspace := (plainText_space hp).2.symm
    have hcomma := (plainText_mark hp (c := 0x2C#8) (by simp)).2
    simp only [List.mem_append, space, comma, List.mem_cons, List.not_mem_nil, or_false]
    rintro c ((((rfl | hc) | rfl | rfl) | hc) | rfl | rfl)
    · exact hspace
    · exact (spells_clean hd c hc).2
    · exact hcomma
    · exact hspace
    · exact (spells_clean hs c hc).2
    · exact hcomma
    · exact hspace
  have h := prepare_canonical hm hmid ((spells_iff P t).mp ht).1 (spells_clean ht)
  simpa only [textR, List.append_assoc] using h

/-- The tokens of canonical R text: the mnemonic and the operands, a comma at the end of the first two. -/
theorem tokens_textR (hp : P.plainText = true) (hm : P.spells m = true) (hd : P.spells d = true) (hs : P.spells s = true)
    (ht : P.spells t = true) : tokens P (textR m d s t) = [m, d ++ [0x2C#8], s ++ [0x2C#8], t] := by
  have hws {key : Bytes} (h : P.spells key = true) : ∀ c ∈ key, P.isWs c = false := fun c hc => (spells_clean h c hc).1
  have hne {key : Bytes} (h : P.spells key = true) : key ≠ [] := ((spells_iff P key).mp h).1
  have hassoc : textR m d s t = m ++ [0x20#8] ++ (d ++ [0x2C#8, 0x20#8] ++ (s ++ [0x2C#8, 0x20#8] ++ t)) := by
    simp only [textR, space, comma, List.append_assoc]
  rw [hassoc, tokens_space hp (hne hm) (hws hm), tokens_comma hp (hws hd), tokens_comma hp (hws hs),
    tokens_run (hne ht) (hws ht)]

/-- The line `m d, s, t` of an R row encodes to the row's word (R111, R170, R171). -/
theorem encodeLine_textR (hP : P.lawful = true) (hp : P.plainText = true) (hm : P.rFunct m = some f)
    (hd : P.regIndex d = some rd) (hs : P.regIndex s = some rs) (ht : P.regIndex t = some rt) :
    encodeLine P (textR m d s t) = .word (composeR rs rt rd f) := by
  have km := spells_of_rFunct hP hm
  have kd := spells_of_regIndex hP hd
  have ks := spells_of_regIndex hP hs
  have kt := spells_of_regIndex hP ht
  have hprep := prepare_textR hp km kd ks kt
  have htok : tokens P (prepare P (textR m d s t)) = [m, d ++ [0x2C#8], s ++ [0x2C#8], t] := by
    rw [hprep, tokens_textR hp km kd ks kt]
  have hparse : parseEntry P (prepare P (textR m d s t)) m [d ++ [0x2C#8], s ++ [0x2C#8], t] (.r f) =
      .ok (rItem m f rd rs rt) := by
    simp only [parseEntry, parseR, resolve_stripSep_comma hP hd, resolve_stripSep_comma hP hs, resolve_stripSep hP ht]
    rfl
  rw [encodeLine_item htok ((lookup_r_iff P m f).mpr hm) hparse, encodeItem_rItem hP hm]

end CanonicalRLine

/-- Settles O53: each character is its bit by definition, and the example is the canonical line of `add` over the three registers
that R22 fixes. -/
theorem wordBitsMsbFirst : Obligations.WordBitsMsbFirst := by
  unfold Obligations.WordBitsMsbFirst
  refine ⟨fun w => ⟨wordBits_length w, fun i hi => wordBits_getElem? w hi⟩, fun P hP hp => ?_⟩
  obtain ⟨h1, h2, h3⟩ := regIndex_t1_t2_t3 hP
  have hline := encodeLine_textR hP hp (rFunct_add hP) h1 h2 h3
  exact ⟨composeR 10#5 11#5 9#5 addFunct, hline, by decide⟩

end Sys2Proof
end

section
/-! PROOF. The step as a transaction of the ports, and batches (20_memory R44 to R48): results come in the order of their
requests, and a framed stream is decoded in order. -/

namespace Sys2Proof.Machine

/-! ### The step in each turn -/

theorem step_of_turn_decode {s : State} {w : Word} (hl : s.params.lawful = true) (ht : s.turn = .decode w) :
    step s = .next (s.answerDec (decodeText s.params w)) := by
  rw [step_eq hl, ht]

theorem step_of_turn_encode {s : State} {line : Bytes} (hl : s.params.lawful = true) (ht : s.turn = .encode line) :
    step s = .next (s.answerEnc (encodeLine s.params line)) := by
  rw [step_eq hl, ht]

theorem step_of_turn_frame {s : State} {x : Stream} (hl : s.params.lawful = true) (ht : s.turn = .frame x) :
    step s = .next (s.answerFrame (frame x)) := by
  rw [step_eq hl, ht]

theorem step_of_turn_idle {s : State} (hl : s.params.lawful = true) (ht : s.turn = .idle) : step s = .next s := by
  rw [step_eq hl, ht]

/-- With no word waiting, the words of a framed stream are all that the Decoder's requests are (log 10). -/
theorem answerFrame_words {s : State} (hdec : s.dec.requests = []) (ws : List Word) :
    s.answerFrame (.words ws) = { s with
      framer := ⟨s.framer.requests.tail, s.framer.results ++ [.words ws]⟩
      dec := ⟨ws, s.dec.results⟩ } := by
  simp [State.answerFrame, Port.answer, hdec]

/-- Settles O23: one clause per result of the framing adapters' turn, and the idle turn. -/
theorem stepFramesOrIdles : Obligations.StepFramesOrIdles := by
  unfold Obligations.StepFramesOrIdles
  refine ⟨fun s x e hl ht hf => ?_, fun s x ws hl ht hf => ?_, fun s => step_of_turn_idle⟩
  · rw [step_of_turn_frame hl ht, hf]
    rfl
  · obtain ⟨hdec, -, -⟩ := (s.turn_frame_iff x).mp ht
    rw [step_of_turn_frame hl ht, hf, answerFrame_words hdec]

/-! ### One result for one transaction (R47) -/

theorem answered_answerDec (r : DecResult) (s : State) : (s.answerDec r).answered = s.answered + 1 := by
  simp only [State.answered, State.answerDec_enc, State.answerDec_dec, State.answerDec_framer, Port.answer_results,
    List.length_append, List.length_singleton]
  omega

theorem answered_answerEnc (r : EncResult) (s : State) : (s.answerEnc r).answered = s.answered + 1 := by
  simp only [State.answered, State.answerEnc_enc_results, State.answerEnc_dec, State.answerEnc_framer,
    List.length_append, List.length_singleton]
  omega

theorem answered_answerFrame (r : FrameResult) (s : State) : (s.answerFrame r).answered = s.answered + 1 := by
  simp only [State.answered, State.answerFrame_enc, State.answerFrame_dec_results, State.answerFrame_framer,
    Port.answer_results, List.length_append, List.length_singleton]
  omega

/-- Settles O28: each of the three answers is one result, and the fourth thing a step can do is nothing, in the idle turn. -/
theorem stepIsOneTransaction : Obligations.StepIsOneTransaction := by
  unfold Obligations.StepIsOneTransaction
  intro s s' h
  obtain ⟨-, ⟨w, ht, rfl⟩ | ⟨line, ht, rfl⟩ | ⟨x, ht, rfl⟩ | ⟨ht, rfl⟩⟩ := step_cases h
  · exact ⟨fun hidle => (nomatch ht.symm.trans hidle), fun _ => answered_answerDec _ s⟩
  · exact ⟨fun hidle => (nomatch ht.symm.trans hidle), fun _ => answered_answerEnc _ s⟩
  · exact ⟨fun hidle => (nomatch ht.symm.trans hidle), fun _ => answered_answerFrame _ s⟩
  · exact ⟨fun _ => rfl, fun hne => absurd ht hne⟩

/-! ### Batches (R48) -/

/-- A batch of words is answered in order, by induction on the words waiting. -/
theorem steps_decoder_batch {s : State} (ws : List Word) (hl : s.params.lawful = true) (hws : s.dec.requests = ws) :
    steps ws.length s = .next { s with dec := ⟨[], s.dec.results ++ ws.map (decodeText s.params)⟩ } := by
  induction ws generalizing s with
  | nil => rw [List.length_nil, steps_zero, List.map_nil, List.append_nil, ← hws]
  | cons w ws ih =>
    have hstep := step_of_turn_decode hl ((s.turn_decode_iff w).mpr ⟨ws, hws⟩)
    have hrest : (s.answerDec (decodeText s.params w)).dec.requests = ws := by simp [hws]
    rw [List.length_cons, steps_succ hstep, ih (s := s.answerDec _) hl hrest]
    simp [State.answerDec]

/-- Settles O56: the batch is every word waiting. -/
theorem decoderBatchInOrder : Obligations.DecoderBatchInOrder := by
  unfold Obligations.DecoderBatchInOrder
  exact fun s hl => steps_decoder_batch _ hl rfl

/-- The lines that fit are answered in order, by induction on them: the step takes the first from behind overlong ones (R232). -/
theorem steps_encoder_batch {s : State} (lines : List Bytes) (hl : s.params.lawful = true) (hdec : s.dec.requests = [])
    (hlines : s.enc.requests.filter (lineFits s.params) = lines) :
    steps lines.length s = .next { s with enc := ⟨s.enc.requests.filter fun l => !lineFits s.params l,
      s.enc.results ++ lines.map (encodeLine s.params)⟩ } := by
  induction lines generalizing s with
  | nil =>
    have hstay : (s.enc.requests.filter fun l => !lineFits s.params l) = s.enc.requests := by
      simpa [List.filter_eq_self] using hlines
    rw [hstay, List.length_nil, steps_zero, List.map_nil, List.append_nil]
  | cons line lines ih =>
    obtain ⟨pre, rest, hsplit, hpre, hfits, hrest⟩ := List.filter_eq_cons_iff.mp hlines
    have hpre' (l : Bytes) (hm : l ∈ pre) : lineFits s.params l = false := by simpa using hpre l hm
    have hanswer := State.answerEnc_of_split hsplit hpre' hfits (encodeLine s.params line)
    have hstep := step_of_turn_encode hl ((s.turn_encode_iff line).mpr ⟨hdec, hfits, pre, rest, hsplit, hpre'⟩)
    have hnext : (pre ++ rest).filter (lineFits s.params) = lines := by
      rw [List.filter_append, hrest, List.filter_eq_nil_iff.mpr hpre, List.nil_append]
    have hstay : ((pre ++ line :: rest).filter fun l => !lineFits s.params l) =
        (pre ++ rest).filter fun l => !lineFits s.params l := by simp [hfits]
    rw [hanswer] at hstep
    have hrun := ih (s := { s with enc := ⟨pre ++ rest, s.enc.results ++ [encodeLine s.params line]⟩ }) hl hdec hnext
    rw [List.length_cons, steps_succ hstep, hrun, hsplit, hstay, List.map_cons, List.append_assoc, List.singleton_append]

/-- Settles O57: the second half is the first where every line fits, so that none stays. -/
theorem encoderBatchInOrder : Obligations.EncoderBatchInOrder := by
  unfold Obligations.EncoderBatchInOrder
  intro s hl hdec
  have hbatch := steps_encoder_batch _ hl hdec rfl
  refine ⟨hbatch, fun ⟨_, hfit⟩ => ?_⟩
  have hall : s.enc.requests.filter (lineFits s.params) = s.enc.requests := List.filter_eq_self.mpr hfit
  have hnone : (s.enc.requests.filter fun l => !lineFits s.params l) = [] := by simpa using hfit
  rwa [hall, hnone] at hbatch

/-! ### A framed stream decoded (R44, R48) -/

/-- A stream presented to an idle block is the transaction in progress. -/
theorem presentStream_turn {s : State} (hidle : s.turn = .idle) (x : Stream) : (s.presentStream x).turn = .frame x := by
  obtain ⟨hdec, henc, hframer⟩ := s.turn_idle_iff.mp hidle
  exact (State.turn_frame_iff _ x).mpr ⟨hdec, by simp [State.presentStream, henc], [], by simp [State.presentStream, hframer]⟩

/-- A step from an idle block given a stream that frames leaves the stream's words, in order, as the Decoder's requests. -/
theorem step_presentStream_words {s : State} (hl : s.params.lawful = true) (hidle : s.turn = .idle) {x : Stream}
    {ws : List Word} (hx : frame x = .words ws) :
    step (s.presentStream x) =
      .next { s with framer := ⟨[], s.framer.results ++ [.words ws]⟩, dec := ⟨ws, s.dec.results⟩ } := by
  obtain ⟨hdec, -, hframer⟩ := s.turn_idle_iff.mp hidle
  rw [step_of_turn_frame (s := s.presentStream x) hl (presentStream_turn hidle x), hx,
    answerFrame_words (s := s.presentStream x) hdec]
  simp [State.presentStream, hframer]

/-- Settles O58: the first step frames the stream, which hands its words to the Decoder; the rest is a batch of the Decoder. -/
theorem serialisedStreamDecoded : Obligations.SerialisedStreamDecoded := by
  unfold Obligations.SerialisedStreamDecoded
  intro s ws hl hidle hne
  have hframe := step_presentStream_words hl hidle (frame_streamBytes hne)
  rw [Nat.add_comm, steps_succ hframe]
  exact steps_decoder_batch (s := { s with framer := _, dec := _ }) ws hl rfl

end Sys2Proof.Machine
end

section
/-! PROOF. The encodings (30_encoding): words and instructions in both directions, the fields of a word, and the offset codec. -/

namespace Sys2Proof

/-! ### Instructions by format (R63) -/

/-- Every instruction is `add` or an I-type row with its operands. -/
theorem instr_cases (i : Instr) : (∃ d s t, i = .add d s t) ∨ ∃ k s t x, i = iInstr k s t x := by
  cases i with
  | add d s t => exact .inl ⟨d, s, t, rfl⟩
  | lw t x s => exact .inr ⟨.lw, s, t, x, rfl⟩
  | sw t x s => exact .inr ⟨.sw, s, t, x, rfl⟩
  | beq s t x => exact .inr ⟨.beq, s, t, x, rfl⟩
  | bne s t x => exact .inr ⟨.bne, s, t, x, rfl⟩

/-- The row of `add` is the instruction `add`. -/
theorem rItem_kwAdd (f : Funct) (d s t : RegIdx) : rItem kwAdd f d s t = .instr (.add d s t) := if_pos rfl

/-- The only instruction an R row can be is `add`, with the row's registers. -/
theorem eq_add_of_rItem_eq_instr {m : Bytes} {f : Funct} {d s t : RegIdx} {i : Instr}
    (h : rItem m f d s t = .instr i) : i = .add d s t := by
  rw [rItem] at h
  split at h
  · exact (Item.instr.inj h).symm
  · cases h

@[simp] theorem isRItem_rItem (m : Bytes) (f : Funct) (d s t : RegIdx) : Machine.isRItem (rItem m f d s t) = true := by
  rw [rItem]
  split <;> rfl

@[simp] theorem isRItem_iInstr (k : IMnemonic) (s t : RegIdx) (x : Int) :
    Machine.isRItem (.instr (iInstr k s t x)) = false := by
  cases k <;> rfl

/-- An I-type instruction's offset is in range exactly when its operand is (R68). -/
theorem offsetOk_iInstr_iff (k : IMnemonic) (s t : RegIdx) (x : Int) :
    (iInstr k s t x).OffsetOk ↔ OffsetInRange x := by
  simp [Instr.OffsetOk, offset_iInstr]

/-- `add` has no offset to be out of range. -/
theorem offsetOk_add (d s t : RegIdx) : (Instr.add d s t).OffsetOk := nofun

/-! ### What the word decoder can answer (R63, R69, R70) -/

/-- A word that decodes has opcode 0 and the function code of an R row, or the opcode of an I row, and gives that row with the
word's own fields. -/
theorem decodeWord_ok {P : Params} {w : Word} {item : Item} (h : decodeWord P w = .ok item) :
    (opcodeOf w = 0#6 ∧ ∃ m, P.rByFunct (functOf w) = some m ∧
      item = rItem m (functOf w) (destOf w) (sourceOf w) (targetOf w)) ∨
    (opcodeOf w ≠ 0#6 ∧ ∃ k, P.iByOp (opcodeOf w) = some k ∧
      item = .instr (iInstr k (sourceOf w) (targetOf w) (sext16 (offsetOf w)))) := by
  rw [decodeWord] at h
  split at h
  · rename_i hop
    split at h
    · cases h
    · rename_i m hm
      exact .inl ⟨hop, m, hm, (Except.ok.inj h).symm⟩
  · rename_i hop
    split at h
    · cases h
    · rename_i k hk
      exact .inr ⟨hop, k, hk, (Except.ok.inj h).symm⟩

/-- Opcode 0 and a function code of no row: `UnknownFunction` of it (R70, R142). -/
theorem decodeText_unknownFunction {P : Params} {w : Word} (hop : opcodeOf w = 0#6)
    (hf : P.rByFunct (functOf w) = none) : decodeText P w = .error (unknownFunction (functOf w)) := by
  simp [decodeText, decodeWord, hop, hf]

/-- A nonzero opcode of no row: `UnknownOpcode` of it (R69, R143). -/
theorem decodeText_unknownOpcode {P : Params} {w : Word} (hop : opcodeOf w ≠ 0#6) (hk : P.iByOp (opcodeOf w) = none) :
    decodeText P w = .error (unknownOpcode (opcodeOf w)) := by
  simp [decodeText, decodeWord, hop, hk]

/-- Words of opcode 0 that agree in function and registers decode alike (R64). -/
theorem decodeWord_eq_of_rFields {P : Params} {w w' : Word} (hop : opcodeOf w = 0#6) (hop' : opcodeOf w' = 0#6)
    (hf : functOf w = functOf w') (hd : destOf w = destOf w') (hs : sourceOf w = sourceOf w')
    (ht : targetOf w = targetOf w') : decodeWord P w = decodeWord P w' := by
  simp only [decodeWord, hop, hop', hf, hd, hs, ht, if_true]

/-! ### Words and instructions in both directions (R79) -/

/-- Settles O3: an R word holds the code of `add`, an I word the opcode of its row, and both lookups are inverse. -/
theorem decodeOfEncode : Obligations.DecodeOfEncode := by
  unfold Obligations.DecodeOfEncode
  intro P i hP hok
  obtain ⟨d, s, t, rfl⟩ | ⟨k, s, t, x, rfl⟩ := instr_cases i
  · have hadd := (rByFunct_iff_rFunct hP kwAdd addFunct).mpr (rFunct_add hP)
    exact (decodeWord_composeR hadd s t d).trans (congrArg _ (rItem_kwAdd ..))
  · rw [encode_iInstr]
    exact decodeWord_composeI hP k s t ((offsetOk_iInstr_iff k s t x).mp hok)

/-- Settles O4: the item is the row of the word's own code with the word's own fields, which compose to the word again. -/
theorem encodeOfDecode : Obligations.EncodeOfDecode := by
  unfold Obligations.EncodeOfDecode
  intro P w item hP h
  obtain ⟨hop, m, hm, rfl⟩ | ⟨hop, k, hk, rfl⟩ := decodeWord_ok h
  · constructor
    · rw [if_pos hop, encodeItem_rItem hP ((rByFunct_iff_rFunct hP m _).mp hm), composeR_of_fields w hop]
    · intro i hi
      rw [eq_add_of_rItem_eq_instr hi]
      exact offsetOk_add _ _ _
  · constructor
    · rw [if_neg hop, encodeItem, encode_iInstr, (iByOp_iff hP _ k).mp hk, composeI_of_fields]
    · intro i hi
      cases hi
      exact (offsetOk_iInstr_iff ..).mpr (sext16_inRange _)

/-- Settles O2: each word is decoded. -/
theorem sampleWordsDecode : Obligations.SampleWordsDecode := by
  unfold Obligations.SampleWordsDecode
  decide

/-! ### The fields of a word (R61 to R65) -/

/-- Settles O8: the word is composed of the fields, the row's own function code among them. -/
theorem rFormatFields : Obligations.RFormatFields := by
  unfold Obligations.RFormatFields
  intro P m f d s t hP hm
  rw [encodeItem_rItem hP hm]
  exact ⟨opcodeOf_composeR .., sourceOf_composeR .., targetOf_composeR .., destOf_composeR .., shamtOf_composeR ..,
    by rw [functOf_composeR, hm]⟩

/-- Settles O9: the word is composed of the fields, and no I opcode is 0. -/
theorem iFormatFields : Obligations.IFormatFields := by
  unfold Obligations.IFormatFields
  intro P k s t x hP
  rw [encode_iInstr]
  have hop := opcodeOf_composeI (P.iTable.opcode k) s t x
  exact ⟨hop, hop.trans_ne (opcode_ne_zero hP k), sourceOf_composeI .., targetOf_composeI .., offsetOf_composeI ..⟩

/-- Settles O10: the decoder's two cases are the two formats, and so are the two kinds of line that encode. -/
theorem formatByOpcodeAlone : Obligations.FormatByOpcodeAlone := by
  unfold Obligations.FormatByOpcodeAlone
  constructor
  · intro P w item h
    obtain ⟨hop, m, -, rfl⟩ | ⟨hop, k, -, rfl⟩ := decodeWord_ok h
    · simp [hop]
    · simp [hop]
  · intro P line w hP h
    obtain ⟨m, operands, htok, hrow⟩ := encodeLine_word hP h
    refine ⟨m, operands, htok, ?_⟩
    obtain ⟨f, d, s, t, -, -, -, hl, -, -, -, -, rfl⟩ | ⟨k, s, t, x, -, -, hl, -, -, -, rfl⟩ := hrow
    · exact ⟨fun _ => ⟨f, hl⟩, fun hne => absurd (opcodeOf_composeR ..) hne⟩
    · rw [opcodeOf_composeI]
      exact ⟨fun h0 => absurd h0 (opcode_ne_zero hP k), fun _ => ⟨k, hl⟩⟩

/-- A field is determined by its bits. -/
theorem extractLsb'_eq_of_bits {w w' : Word} {start len : Nat}
    (h : ∀ k, start ≤ k → k < start + len → w.getLsbD k = w'.getLsbD k) :
    w.extractLsb' start len = w'.extractLsb' start len := by
  apply BitVec.eq_of_getLsbD_eq
  intro i hi
  rw [BitVec.getLsbD_extractLsb', BitVec.getLsbD_extractLsb', h (start + i) (by omega) (by omega)]

/-- Settles O11: every field but the shift amount lies outside bits 10:6, and the decoder reads only those. -/
theorem shiftAmountIgnored : Obligations.ShiftAmountIgnored := by
  unfold Obligations.ShiftAmountIgnored
  intro P w w' hop hbits
  have above {start len : Nat} (hstart : 10 < start) : w.extractLsb' start len = w'.extractLsb' start len :=
    extractLsb'_eq_of_bits fun k hk _ => hbits k (.inr (by omega))
  have hop' : opcodeOf w' = 0#6 := (above (by decide)).symm.trans hop
  have hf : functOf w = functOf w' := extractLsb'_eq_of_bits fun k _ hk => hbits k (.inl (by omega))
  rw [decodeText, decodeText,
    decodeWord_eq_of_rFields hop hop' hf (above (by decide)) (above (by decide)) (above (by decide))]

/-! ### The default tables (R69, R70) -/

/-- The default `ITable` has no other opcode than 4, 5, 35 and 43 (D3). -/
theorem iByOp_default_eq_none {op : Opcode} (h : op ∉ [4#6, 5#6, 35#6, 43#6]) : Params.default.iByOp op = none := by
  simp only [List.mem_cons, List.not_mem_nil, or_false, not_or] at h
  obtain ⟨hbeq, hbne, hlw, hsw⟩ := h
  rw [Params.iByOp, List.find?_eq_none]
  rintro (_ | _ | _ | _) -
  · simpa [Params.default, ITable.opcode] using Ne.symm hlw
  · simpa [Params.default, ITable.opcode] using Ne.symm hsw
  · simpa [Params.default, ITable.opcode] using Ne.symm hbeq
  · simpa [Params.default, ITable.opcode] using Ne.symm hbne

/-- The default `RTable` has no other function code than 32 (D4). -/
theorem rByFunct_default_eq_none {f : Funct} (h : f ≠ 32#6) : Params.default.rByFunct f = none := by
  simpa [Params.rByFunct, Params.default, addFunct] using h.symm

/-- Settles O14: such a code is in no row of the default tables. -/
theorem otherCodesUnknownByDefault : Obligations.OtherCodesUnknownByDefault := by
  unfold Obligations.OtherCodesUnknownByDefault
  constructor
  · intro w hw
    rw [List.mem_cons, not_or] at hw
    obtain ⟨hzero, hrows⟩ := hw
    exact decodeText_unknownOpcode hzero (iByOp_default_eq_none hrows)
  · intro w hop hf
    exact decodeText_unknownFunction hop (rByFunct_default_eq_none hf)

/-! ### The offset field (R66 to R68) -/

/-- Settles O5: only an I-type instruction has an offset, and its word is composed of the offset's low bits. -/
theorem offsetFieldHoldsLow16 : Obligations.OffsetFieldHoldsLow16 := by
  unfold Obligations.OffsetFieldHoldsLow16
  refine ⟨fun P i x hx => ?_, fun x => lo16_toNat, by decide⟩
  obtain ⟨d, s, t, rfl⟩ | ⟨k, s, t, y, rfl⟩ := instr_cases i
  · cases hx
  · obtain rfl : y = x := Option.some.inj ((offset_iInstr k s t y).symm.trans hx)
    rw [encode_iInstr, offsetOf_composeI]

/-- The field read as a number: 65536 is subtracted from the upper half (R67). -/
theorem sext16_eq_ite (f : BitVec 16) :
    sext16 f = if f.toNat ≤ 32767 then (f.toNat : Int) else (f.toNat : Int) - 65536 := by
  rw [sext16_eq_toInt, BitVec.toInt_eq_toNat_cond]
  split <;> split <;> omega

/-- Settles O6: with a nonzero opcode the decoder gives an I row, whose offset is the field as read. -/
theorem offsetFieldReadSigned : Obligations.OffsetFieldReadSigned := by
  unfold Obligations.OffsetFieldReadSigned
  refine ⟨sext16_eq_ite, fun P w i hop h => ?_⟩
  obtain ⟨hzero, -⟩ | ⟨-, k, -, hi⟩ := decodeWord_ok h
  · exact absurd hzero hop
  · cases hi
    exact offset_iInstr ..

/-- An offset text whose value is out of range is `InvalidOffset` of the text (R68, R109). -/
theorem parseOffset_out_of_range {t : Bytes} {x : Int} (ht : offsetValue t = some x) (hx : ¬ OffsetInRange x) :
    parseOffset t = .error (invalidOffset t) := by
  rw [parseOffset, ht]
  exact if_neg hx

/-- Settles O7: the two codec laws, and the range check of the offset reader. -/
theorem offsetCodecInverse : Obligations.OffsetCodecInverse := by
  unfold Obligations.OffsetCodecInverse
  exact ⟨fun x => sext16_lo16, fun f => ⟨lo16_sext16 f, sext16_inRange f⟩, fun t x => parseOffset_out_of_range⟩

end Sys2Proof
end

section
/-! PROOF. The round trips between lines and words (30_encoding R79): canonical text of every row is read back as the row's
word, and every text the Decoder gives is canonical. -/

namespace Sys2Proof

/-! ### Canonical text and its tokens (R104, R146) -/

/-- A token that stands in canonical text as it is: not empty, no whitespace byte and no comment marker. -/
def Params.CleanToken (P : Params) (t : Bytes) : Prop := t ≠ [] ∧ ∀ c ∈ t, P.isWs c = false ∧ c ≠ P.commentChar

/-- Canonical text (R146): the mnemonic, a space, and the operands with a comma and a space between. -/
def canonicalLine (m : Bytes) (front : List Bytes) (last : Bytes) : Bytes :=
  m ++ space ++ front.flatMap (· ++ comma) ++ last

section CanonicalLine

variable {P : Params} {m last : Bytes} {front : List Bytes}

theorem cleanToken_of_spells (h : P.spells m = true) : P.CleanToken m := ⟨((spells_iff P m).mp h).1, spells_clean h⟩

/-- Canonical text is already prepared. -/
theorem prepare_canonicalLine (hp : P.plainText = true) (hm : P.spells m = true) (hfront : ∀ t ∈ front, P.CleanToken t)
    (hlast : P.CleanToken last) : prepare P (canonicalLine m front last) = canonicalLine m front last := by
  have hspace : 0x20#8 ≠ P.commentChar := (plainText_space hp).2.symm
  have hcomma : 0x2C#8 ≠ P.commentChar := (plainText_mark hp (by simp)).2
  have hmid : ∀ c ∈ space ++ front.flatMap (· ++ comma), c ≠ P.commentChar := by
    simp only [space, comma, List.mem_append, List.mem_flatMap, List.mem_cons, List.not_mem_nil, or_false]
    rintro c (rfl | ⟨t, ht, hc | rfl | rfl⟩)
    · exact hspace
    · exact ((hfront t ht).2 c hc).2
    · exact hcomma
    · exact hspace
  have h := prepare_canonical hm hmid hlast.1 hlast.2
  rwa [← List.append_assoc] at h

/-- The operands of canonical text are its further tokens, a comma at the end of each but the last. -/
theorem tokens_operands (hp : P.plainText = true) (hfront : ∀ t ∈ front, P.CleanToken t) (hlast : P.CleanToken last) :
    tokens P (front.flatMap (· ++ comma) ++ last) = front.map (· ++ [0x2C#8]) ++ [last] := by
  induction front with
  | nil => exact tokens_run hlast.1 fun c hc => (hlast.2 c hc).1
  | cons t front ih =>
    have hrest := ih fun u hu => hfront u (List.mem_cons_of_mem t hu)
    have ht := (hfront t List.mem_cons_self).2
    rw [List.flatMap_cons, List.append_assoc, comma, tokens_comma hp fun c hc => (ht c hc).1, ← comma, hrest]
    rfl

/-- The tokens of canonical text, read as the Encoder reads a line. -/
theorem tokens_prepare_canonicalLine (hp : P.plainText = true) (hm : P.spells m = true)
    (hfront : ∀ t ∈ front, P.CleanToken t) (hlast : P.CleanToken last) :
    tokens P (prepare P (canonicalLine m front last)) = m :: (front.map (· ++ [0x2C#8]) ++ [last]) := by
  obtain ⟨hne, hclean⟩ := cleanToken_of_spells hm
  rw [prepare_canonicalLine hp hm hfront hlast, canonicalLine, List.append_assoc, space,
    tokens_space hp hne fun c hc => (hclean c hc).1, tokens_operands hp hfront hlast]

end CanonicalLine

/-! ### I lines read back (R112, R113, R180 to R191) -/

/-- The memory operand of canonical text: `offset(source)` (R143). -/
def memOperand (x : Int) (ns : Bytes) : Bytes := decText x ++ [0x28#8] ++ ns ++ [0x29#8]

theorem textMem_eq_canonicalLine (m nt : Bytes) (x : Int) (ns : Bytes) :
    textMem m nt x ns = canonicalLine m [nt] (memOperand x ns) := by
  simp [textMem, canonicalLine, memOperand]

theorem textBranch_eq_canonicalLine (m ns nt : Bytes) (x : Int) :
    textBranch m ns nt x = canonicalLine m [ns, nt] (decText x) := by
  simp [textBranch, canonicalLine]

theorem decText_ne_mark {x : Int} {c : Byte} (h : c ∈ decText x) : c ≠ 0x28#8 ∧ c ≠ 0x29#8 ∧ c ≠ 0x2C#8 := by
  obtain rfl | hd := decText_mem h
  · decide
  · obtain ⟨-, -, hopen, hclose, hcomma⟩ := isDigit_ne hd
    exact ⟨hopen, hclose, hcomma⟩

theorem stripSep_decText (x : Int) : stripSep (decText x) = decText x :=
  stripSep_of_last (last_ne_comma_of_not_mem fun _ hc => (decText_ne_mark hc).2.2)

theorem stripSep_memOperand (x : Int) (ns : Bytes) : stripSep (memOperand x ns) = memOperand x ns :=
  stripSep_of_last (by rw [memOperand, List.getLast?_concat]; decide)

theorem cleanToken_decText {P : Params} (hp : P.plainText = true) (x : Int) : P.CleanToken (decText x) :=
  ⟨decText_ne_nil x, fun _ hc => decText_plain hp hc⟩

theorem cleanToken_memOperand {P : Params} (hp : P.plainText = true) (x : Int) {ns : Bytes} (hs : P.spells ns = true) :
    P.CleanToken (memOperand x ns) := by
  refine ⟨by simp [memOperand], ?_⟩
  simp only [memOperand, List.mem_append, List.mem_singleton]
  rintro c (((hc | rfl) | hc) | rfl)
  · exact decText_plain hp hc
  · exact plainText_mark hp (by simp)
  · exact spells_clean hs c hc
  · exact plainText_mark hp (by simp)

/-- The memory operand splits into the offset and the source again (R110). -/
theorem splitMem_memOperand {P : Params} (line : Bytes) (x : Int) {ns : Bytes} (hs : P.spells ns = true) :
    splitMem line (memOperand x ns) = .ok (decText x, ns) := by
  have hmark := ((spells_iff P ns).mp hs).2
  exact splitMem_of_form ⟨fun hc => (decText_ne_mark hc).1 rfl, fun hc => (decText_ne_mark hc).2.1 rfl⟩
    ⟨fun hc => (hmark _ hc).2.2.2.1 rfl, fun hc => (hmark _ hc).2.2.2.2 rfl⟩

/-- A read that succeeded is followed by the rest of the reader. -/
theorem except_ok_bind {α β : Type} (a : α) (f : α → Except Err β) : (Except.ok a >>= f) = f a := rfl

theorem resolve_of_regIndex {P : Params} {n : Bytes} {r : RegIdx} (h : P.regIndex n = some r) : resolve P n = .ok r := by
  rw [resolve, h]

section CanonicalILine

variable {P : Params} {k : IMnemonic} {ns nt : Bytes} {rs rt : RegIdx} {x : Int}

/-- The line `m target, offset(source)` of a memory row encodes to the row's word (R112, R180, R181). -/
theorem encodeLine_textMem (hP : P.lawful = true) (hp : P.plainText = true) (hk : k.shape = .memory)
    (hs : P.regIndex ns = some rs) (ht : P.regIndex nt = some rt) (hx : OffsetInRange x) :
    encodeLine P (textMem k.spelling nt x ns) = .word (composeI (P.iTable.opcode k) rs rt x) := by
  have ks := spells_of_regIndex hP hs
  have kt := spells_of_regIndex hP ht
  have htok := tokens_prepare_canonicalLine hp (spells_iMnemonic hP k) (front := [nt])
    (by simpa using cleanToken_of_spells kt) (cleanToken_memOperand hp x ks)
  rw [← textMem_eq_canonicalLine] at htok
  have hparse : parseEntry P (prepare P (textMem k.spelling nt x ns)) k.spelling [nt ++ [0x2C#8], memOperand x ns] (.i k) =
      .ok (.instr (iInstr k rs rt x)) := by
    simp only [parseEntry, hk, parseMem, stripSep_memOperand, splitMem_memOperand _ x ks, parseOffset_decText hx,
      resolve_of_regIndex hs, resolve_stripSep_comma hP ht, except_ok_bind]
    rfl
  rw [encodeLine_item htok ((lookup_i_iff hP _ k).mpr rfl) hparse, encodeItem, encode_iInstr]

/-- The line `m source, target, offset` of a branch row encodes to the row's word (R113, R190, R191). -/
theorem encodeLine_textBranch (hP : P.lawful = true) (hp : P.plainText = true) (hk : k.shape = .branch)
    (hs : P.regIndex ns = some rs) (ht : P.regIndex nt = some rt) (hx : OffsetInRange x) :
    encodeLine P (textBranch k.spelling ns nt x) = .word (composeI (P.iTable.opcode k) rs rt x) := by
  have ks := spells_of_regIndex hP hs
  have kt := spells_of_regIndex hP ht
  have htok := tokens_prepare_canonicalLine hp (spells_iMnemonic hP k) (front := [ns, nt])
    (by simpa using ⟨cleanToken_of_spells ks, cleanToken_of_spells kt⟩) (cleanToken_decText hp x)
  rw [← textBranch_eq_canonicalLine] at htok
  have hparse : parseEntry P (prepare P (textBranch k.spelling ns nt x)) k.spelling
      [ns ++ [0x2C#8], nt ++ [0x2C#8], decText x] (.i k) = .ok (.instr (iInstr k rs rt x)) := by
    simp only [parseEntry, hk, parseBranch, stripSep_decText, parseOffset_decText hx, resolve_stripSep_comma hP hs,
      resolve_stripSep_comma hP ht]
    rfl
  rw [encodeLine_item htok ((lookup_i_iff hP _ k).mpr rfl) hparse, encodeItem, encode_iInstr]

end CanonicalILine

/-! ### The canonical text of a row, written and read (R142, R143, R146) -/

/-- The canonical text of an I row, in the shape of its mnemonic (R143). -/
def textI (k : IMnemonic) (x : Int) (ns nt : Bytes) : Bytes :=
  match k.shape with
  | .memory => textMem k.spelling nt x ns
  | .branch => textBranch k.spelling ns nt x

/-- An I-type instruction is printed as its row's canonical text. -/
theorem renderInstr_iInstr (P : Params) (k : IMnemonic) (s t : RegIdx) (x : Int) :
    renderInstr P (iInstr k s t x) = renderI P s t (textI k x) := by
  cases k <;> rfl

theorem encodeLine_textI {P : Params} {k : IMnemonic} {ns nt : Bytes} {rs rt : RegIdx} {x : Int} (hP : P.lawful = true)
    (hp : P.plainText = true) (hs : P.regIndex ns = some rs) (ht : P.regIndex nt = some rt) (hx : OffsetInRange x) :
    encodeLine P (textI k x ns nt) = .word (composeI (P.iTable.opcode k) rs rt x) := by
  cases hk : k.shape with
  | memory => simpa only [textI, hk] using encodeLine_textMem hP hp hk hs ht hx
  | branch => simpa only [textI, hk] using encodeLine_textBranch hP hp hk hs ht hx

/-- A field that has a name is the field of that name (R13, R145). -/
theorem regIndex_of_nameOf {P : Params} (hP : P.lawful = true) {n : Bytes} {r : RegIdx} (h : nameOf P r = .ok n) :
    P.regIndex n = some r := by
  rw [nameOf] at h
  split at h
  · rename_i hn
    cases h
    exact (regName_iff_regIndex hP n r).mp hn
  · cases h

/-- An R row printed as a text has three named registers and is printed as its canonical text. -/
theorem renderR_text {P : Params} {m c : Bytes} {d s t : RegIdx} (h : renderR P m d s t = .text c) :
    ∃ nd ns nt, nameOf P d = .ok nd ∧ nameOf P s = .ok ns ∧ nameOf P t = .ok nt ∧ c = textR m nd ns nt := by
  rw [renderR] at h
  split at h
  · cases h
  · cases h
  · cases h
  · rename_i ns nt nd hs ht hd
    exact ⟨nd, ns, nt, hd, hs, ht, (DecResult.text.inj h).symm⟩

/-- An I row printed as a text has two named registers and is printed as they are laid out. -/
theorem renderI_text {P : Params} {s t : RegIdx} {text : Bytes → Bytes → Bytes} {c : Bytes}
    (h : renderI P s t text = .text c) :
    ∃ ns nt, nameOf P s = .ok ns ∧ nameOf P t = .ok nt ∧ c = text ns nt := by
  rw [renderI] at h
  split at h
  · cases h
  · cases h
  · rename_i ns nt hs ht
    exact ⟨ns, nt, hs, ht, (DecResult.text.inj h).symm⟩

/-- The word of an R row over named registers decodes to the row's canonical text (R142). -/
theorem decodeText_composeR {P : Params} {m nd ns nt : Bytes} {f : Funct} {d s t : RegIdx} (hP : P.lawful = true)
    (hm : P.rFunct m = some f) (hd : P.regIndex nd = some d) (hs : P.regIndex ns = some s) (ht : P.regIndex nt = some t) :
    decodeText P (composeR s t d f) = .text (textR m nd ns nt) := by
  rw [decodeText, decodeWord_composeR ((rByFunct_iff_rFunct hP m f).mpr hm)]
  simp only [renderItem_rItem, renderR, nameOf_of_regIndex hP hd, nameOf_of_regIndex hP hs, nameOf_of_regIndex hP ht]

/-- The word of an I row over named registers decodes to the row's canonical text (R143). -/
theorem decodeText_composeI {P : Params} {k : IMnemonic} {ns nt : Bytes} {s t : RegIdx} {x : Int} (hP : P.lawful = true)
    (hs : P.regIndex ns = some s) (ht : P.regIndex nt = some t) (hx : OffsetInRange x) :
    decodeText P (composeI (P.iTable.opcode k) s t x) = .text (textI k x ns nt) := by
  rw [decodeText, decodeWord_composeI hP k s t hx]
  simp only [renderItem, renderInstr_iInstr, renderI, nameOf_of_regIndex hP hs, nameOf_of_regIndex hP ht]

/-- A text the Decoder gives is the canonical text of the word's row over the word's own fields. -/
theorem decodeText_text {P : Params} {w : Word} {c : Bytes} (hP : P.lawful = true) (h : decodeText P w = .text c) :
    (opcodeOf w = 0#6 ∧ ∃ m nd ns nt, P.rFunct m = some (functOf w) ∧ P.regIndex nd = some (destOf w) ∧
      P.regIndex ns = some (sourceOf w) ∧ P.regIndex nt = some (targetOf w) ∧ c = textR m nd ns nt) ∨
    (opcodeOf w ≠ 0#6 ∧ ∃ k ns nt, P.iTable.opcode k = opcodeOf w ∧ P.regIndex ns = some (sourceOf w) ∧
      P.regIndex nt = some (targetOf w) ∧ c = textI k (sext16 (offsetOf w)) ns nt) := by
  rw [decodeText] at h
  split at h
  · cases h
  · rename_i item hitem
    obtain ⟨hop, m, hm, rfl⟩ | ⟨hop, k, hk, rfl⟩ := decodeWord_ok hitem
    · rw [renderItem_rItem] at h
      obtain ⟨nd, ns, nt, hd, hs, ht, rfl⟩ := renderR_text h
      exact .inl ⟨hop, m, nd, ns, nt, (rByFunct_iff_rFunct hP m _).mp hm, regIndex_of_nameOf hP hd,
        regIndex_of_nameOf hP hs, regIndex_of_nameOf hP ht, rfl⟩
    · rw [renderItem, renderInstr_iInstr] at h
      obtain ⟨ns, nt, hs, ht, rfl⟩ := renderI_text h
      exact .inr ⟨hop, k, ns, nt, (iByOp_iff hP _ k).mp hk, regIndex_of_nameOf hP hs, regIndex_of_nameOf hP ht, rfl⟩

/-! ### Round trips (R79) -/

/-- Settles O49: the line was an R row or an I row over named registers, whose word decodes to the row's canonical text, and that
text encodes to the row's word. -/
theorem encodedLineRoundTrips : Obligations.EncodedLineRoundTrips := by
  unfold Obligations.EncodedLineRoundTrips
  intro P line w hP h
  obtain ⟨m, -, -, hrow⟩ := encodeLine_word hP h
  obtain ⟨f, d, s, t, nd, ns, nt, -, hm, hd, hs, ht, rfl⟩ | ⟨k, s, t, x, ns, nt, -, hs, ht, hx, rfl⟩ := hrow
  · exact ⟨_, decodeText_composeR hP hm hd hs ht, fun hp => encodeLine_textR hP hp hm hd hs ht⟩
  · exact ⟨_, decodeText_composeI hP hs ht hx, fun hp => encodeLine_textI hP hp hs ht hx⟩

/-- A text the Decoder gives encodes to the word, the shift amount of an R word cleared (R79 laws 2 and 3). -/
theorem encodeLine_decodeText {P : Params} {w : Word} {c : Bytes} (hP : P.lawful = true) (hp : P.plainText = true)
    (h : decodeText P w = .text c) :
    encodeLine P c = .word (if opcodeOf w = 0#6 then w &&& 0xFFFFF83F#32 else w) := by
  obtain ⟨hop, m, nd, ns, nt, hm, hd, hs, ht, rfl⟩ | ⟨hop, k, ns, nt, hk, hs, ht, rfl⟩ := decodeText_text hP h
  · rw [if_pos hop, encodeLine_textR hP hp hm hd hs ht, composeR_of_fields w hop]
  · rw [if_neg hop, encodeLine_textI hP hp hs ht (sext16_inRange _), hk, composeI_of_fields]

/-- Settles O50: clearing the shift amount leaves an R word as it is exactly when the shift amount is 0. -/
theorem decodedWordRoundTrips : Obligations.DecodedWordRoundTrips := by
  unfold Obligations.DecodedWordRoundTrips
  intro P w c hP hp h
  have hline := encodeLine_decodeText hP hp h
  refine ⟨hline, ?_⟩
  rw [hline, EncResult.word.injEq]
  by_cases hop : opcodeOf w = 0#6
  · simp [hop, clear_shamt_eq_self]
  · simp [hop]

end Sys2Proof
end

section
/-! PROOF. The Encoder's reading of a line (40_assembler R100 to R114): preparation, tokens and the operand primitives, then the
checks of each line format in their order, and the step that runs a line. -/

namespace Sys2Proof

/-! ### Comments and blank lines (R101, R103) -/

/-- The line's result depends on what is left of the line before its comment, and on nothing else. -/
theorem encodeLine_congr {P : Params} {line line' : Bytes} (h : stripComment P line = stripComment P line') :
    encodeLine P line = encodeLine P line' := by
  simp only [encodeLine, parseLine, prepare, h]

theorem stripComment_of_not_mem {P : Params} {a : Bytes} (h : P.commentChar ∉ a) : stripComment P a = a := by
  rw [stripComment, List.takeWhile_eq_self_iff]
  intro c hc
  exact bne_iff_ne.mpr fun heq => h (heq ▸ hc)

/-- What stands from a comment marker on is discarded, also when an earlier marker has cut the line already. -/
theorem stripComment_append_marker (P : Params) (a b : Bytes) :
    stripComment P (a ++ P.commentChar :: b) = stripComment P a := by
  rw [stripComment, List.takeWhile_append, List.takeWhile_cons_of_neg (by simp), List.append_nil]
  split
  · next h => exact (List.takeWhile_sublist _).eq_of_length h |>.symm
  · rfl

/-- Settles O35: without a marker nothing is cut, and behind one everything is, so that the Encoder reads the same line. -/
theorem commentDiscarded : Obligations.CommentDiscarded := by
  unfold Obligations.CommentDiscarded
  intro P a b h
  have hcut := stripComment_append_marker P a b
  exact ⟨stripComment_of_not_mem h, hcut.trans (stripComment_of_not_mem h), encodeLine_congr hcut⟩

/-- `Trim` takes whitespace from the two ends and nothing else. -/
theorem trim_split (P : Params) (s : Bytes) :
    ∃ a b, s = a ++ trim P s ++ b ∧ (∀ c ∈ a, P.isWs c = true) ∧ (∀ c ∈ b, P.isWs c = true) := by
  obtain ⟨b, hsplit, hb⟩ := dropTrailing_append_replicate P.isWs (s.dropWhile P.isWs)
  refine ⟨s.takeWhile P.isWs, b, ?_, fun c => List.mem_takeWhile_imp, hb⟩
  rw [List.append_assoc, trim, ← hsplit, List.takeWhile_append_dropWhile]

/-- A trimmed text does not begin with whitespace. -/
theorem trim_head (P : Params) (s : Bytes) : ∀ c ∈ (trim P s).head?, P.isWs c = false := by
  intro c hc
  obtain ⟨b, hsplit, -⟩ := dropTrailing_append_replicate P.isWs (s.dropWhile P.isWs)
  rw [← trim] at hsplit
  have hhead : (s.dropWhile P.isWs).head? = some c := by rw [hsplit, List.head?_append, hc, Option.some_or]
  have hnot := List.head?_dropWhile_not P.isWs s
  rw [hhead] at hnot
  simpa using hnot

/-- A trimmed text does not end with whitespace. -/
theorem trim_last (P : Params) (s : Bytes) : ∀ c ∈ (trim P s).getLast?, P.isWs c = false := dropTrailing_last _ _

/-- Nothing is left of a text exactly when it is all whitespace. -/
theorem trim_eq_nil_iff (P : Params) (s : Bytes) : trim P s = [] ↔ ∀ c ∈ s, P.isWs c = true := by
  obtain ⟨a, b, hsplit, ha, hb⟩ := trim_split P s
  constructor
  · intro h c hc
    rw [hsplit, h, List.append_nil, List.mem_append] at hc
    exact hc.elim (ha c) (hb c)
  · intro h
    cases ht : trim P s with
    | nil => rfl
    | cons c rest =>
      have hnot : P.isWs c = false := trim_head P s c (by simp [ht])
      have hws : P.isWs c = true := h c (by rw [hsplit, ht]; simp)
      exact absurd (hws.symm.trans hnot) (by decide)

/-- A line reads as nothing exactly when it has no token. -/
theorem parseLine_none_iff (P : Params) (line : Bytes) :
    parseLine P line = .ok none ↔ tokens P (prepare P line) = [] := by
  rw [parseLine]
  split
  · next h => simp [h]
  · next m operands h =>
    rw [h]
    split
    · simp
    · next entry _ => cases parseEntry P (prepare P line) m operands entry <;> simp [Except.map]

/-- The result is `Empty` exactly when the prepared line is empty (R103). -/
theorem encodeLine_empty_iff (P : Params) (line : Bytes) : encodeLine P line = .empty ↔ prepare P line = [] := by
  rw [← tokens_eq_nil_of_prepare (s := prepare P line) (trim_head P _), ← parseLine_none_iff, encodeLine]
  cases parseLine P line with
  | error e => simp
  | ok item? => cases item? <;> simp

theorem encodeLine_whitespace {P : Params} {line : Bytes} (h : ∀ c ∈ line, P.isWs c = true) :
    encodeLine P line = .empty := by
  rw [encodeLine_empty_iff, prepare, trim_eq_nil_iff]
  exact fun c hc => h c ((List.takeWhile_sublist _).subset hc)

/-- A result that is no error is a word exactly when it is not `Empty`. -/
theorem encWord?_isSome_of_no_error {r : EncResult} (h : Machine.encError? r = none) :
    (Machine.encWord? r).isSome = true ↔ r ≠ .empty := by
  cases r with
  | empty => simp [Machine.encWord?]
  | word w => simp [Machine.encWord?]
  | error e => cases h

/-- A batch without errors has one word per line that is not blank (R103). -/
theorem words_length_of_no_error {P : Params} {lines : List Bytes}
    (h : ∀ line ∈ lines, Machine.encError? (encodeLine P line) = none) :
    ((lines.map (encodeLine P)).filterMap Machine.encWord?).length =
      (lines.filter fun line => !(prepare P line).isEmpty).length := by
  rw [List.filterMap_map, List.length_filterMap_eq_countP, ← List.countP_eq_length_filter]
  refine List.countP_congr fun line hline => ?_
  rw [Function.comp_apply, encWord?_isSome_of_no_error (h line hline), ne_eq, encodeLine_empty_iff]
  simp

/-- Settles O34: the split and the two ends of `Trim`, and the blank lines as those of which nothing but whitespace is left. -/
theorem blankLinesGiveEmpty : Obligations.BlankLinesGiveEmpty := by
  unfold Obligations.BlankLinesGiveEmpty
  intro P
  refine ⟨fun s => ?_, encodeLine_empty_iff P, encodeLine_whitespace (by simp), fun line => encodeLine_whitespace, ?_,
    fun lines => words_length_of_no_error⟩
  · obtain ⟨a, b, hsplit, ha, hb⟩ := trim_split P s
    exact ⟨a, b, hsplit, ha, hb, trim_head P s, trim_last P s⟩
  · intro a b ha
    rw [encodeLine_congr (stripComment_append_marker P a b), encodeLine_whitespace ha]

/-! ### Tokens, the mnemonic and separators (R104 to R106) -/

/-- Settles O36: a token ends at whitespace or at the end of the text, and the example is two runs with one space between. -/
theorem tokensAreMaximalRuns : Obligations.TokensAreMaximalRuns := by
  unfold Obligations.TokensAreMaximalRuns
  refine ⟨fun P => rfl, fun P c rest hc => tokens_ws hc rest, fun P run => tokens_run,
    fun P run c rest hne hrun hc => tokens_run_ws hne hrun hc rest, fun P s => mem_tokensFrom s [] (by simp), ?_⟩
  intro P hspace hchars
  have hmnemonic : ∀ c ∈ ascii ['a', 'd', 'd'], P.isWs c = false :=
    fun c hc => hchars c ((by decide : ascii ['a', 'd', 'd'] ⊆ ascii ['a', 'd', '$', 't', '1', '2', '3', ',']) hc)
  have hoperands : ∀ c ∈ ascii ['$', 't', '1', ',', '$', 't', '2', ',', '$', 't', '3'], P.isWs c = false :=
    fun c hc => hchars c ((by decide : ascii ['$', 't', '1', ',', '$', 't', '2', ',', '$', 't', '3'] ⊆
      ascii ['a', 'd', '$', 't', '1', '2', '3', ',']) hc)
  have htwo := tokens_run_ws (by decide) hmnemonic hspace (ascii ['$', 't', '1', ',', '$', 't', '2', ',', '$', 't', '3'])
  rwa [tokens_run (by decide) hoperands] at htwo

/-- A text that is the key of no row of either table has no entry (R105). -/
theorem lookup_eq_none {P : Params} {m : Bytes} (hR : ∀ r ∈ P.rTable, r.mnemonic ≠ m)
    (hI : ∀ k : IMnemonic, k.spelling ≠ m) : P.lookup m = none := by
  have hfunct : P.rFunct m = none := by
    rw [Params.rFunct, Option.map_eq_none_iff, List.find?_eq_none]
    exact fun r hr => by simpa using hR r hr
  have hnamed : iNamed m = none := by
    rw [iNamed, List.find?_eq_none]
    exact fun k _ => by simpa using hI k
  rw [Params.lookup, hfunct, hnamed]
  rfl

/-- The mnemonic is looked up before any operand is read (R100). -/
theorem encodeLine_unknownInstruction {P : Params} {line m : Bytes} {operands : List Bytes}
    (ht : tokens P (prepare P line) = m :: operands) (hm : P.lookup m = none) :
    encodeLine P line = .error (unknownInstruction m) := by
  simp [encodeLine, parseLine, ht, hm]

/-- Settles O37: such a token has no entry, and the lookup is the first check. -/
theorem mnemonicCheckedFirst : Obligations.MnemonicCheckedFirst := by
  unfold Obligations.MnemonicCheckedFirst
  exact fun P line m operands ht hR hI => encodeLine_unknownInstruction ht (lookup_eq_none hR hI)

/-- Settles O38: what is dropped is commas alone, and no comma is left to drop. -/
theorem trailingCommasStripped : Obligations.TrailingCommasStripped := by
  unfold Obligations.TrailingCommasStripped
  intro t
  constructor
  · obtain ⟨b, hsplit, hb⟩ := dropTrailing_append_replicate (fun c => c == 0x2C#8) t
    have hcommas : b = List.replicate b.length 0x2C#8 := List.eq_replicate_of_mem fun c hc => beq_iff_eq.mp (hb c hc)
    exact ⟨b.length, hcommas ▸ hsplit⟩
  · intro hcomma
    have hnot := dropTrailing_last (fun c => c == 0x2C#8) t _ hcomma
    exact absurd hnot (by decide)

/-! ### Offsets (R108, R109) -/

/-- The texts `[0-9]+`, and their value. -/
theorem digitsValue_eq_some_iff (t : Bytes) (n : Nat) :
    digitsValue t = some n ↔ t ≠ [] ∧ (∀ c ∈ t, isDigit c = true) ∧
      t.foldl (fun n c => 10 * n + (c.toNat - 0x30)) 0 = n := by
  simp [digitsValue, and_assoc]

/-- A digit behind a number is its new last digit. -/
theorem digitsValue_concat {t : Bytes} {n : Nat} {c : Byte} (ht : digitsValue t = some n) (hc : isDigit c = true) :
    digitsValue (t ++ [c]) = some (10 * n + (c.toNat - 48)) := by
  obtain ⟨-, hdigits, hvalue⟩ := (digitsValue_eq_some_iff t n).mp ht
  refine (digitsValue_eq_some_iff _ _).mpr ⟨by simp, ?_, by simp [hvalue]⟩
  simpa [or_imp, forall_and] using ⟨hdigits, hc⟩

theorem digitsValue_singleton {c : Byte} (hc : isDigit c = true) : digitsValue [c] = some (c.toNat - 48) :=
  (digitsValue_eq_some_iff _ _).mpr ⟨by simp, by simpa using hc, by simp⟩

/-- A text that has a value is a number behind no sign, behind `+` or behind `-`. -/
theorem offsetValue_some {t : Bytes} {x : Int} (h : offsetValue t = some x) :
    ∃ sign ds n, t = sign ++ ds ∧ (sign = [] ∨ sign = [0x2B#8] ∨ sign = [0x2D#8]) ∧ digitsValue ds = some n := by
  cases t with
  | nil => cases h
  | cons c rest =>
    rw [offsetValue] at h
    split at h
    · next hplus =>
      obtain ⟨n, hn, -⟩ := Option.map_eq_some_iff.mp h
      exact ⟨[0x2B#8], rest, n, by rw [hplus]; rfl, .inr (.inl rfl), hn⟩
    · split at h
      · next hminus =>
        obtain ⟨n, hn, -⟩ := Option.map_eq_some_iff.mp h
        exact ⟨[0x2D#8], rest, n, by rw [hminus]; rfl, .inr (.inr rfl), hn⟩
      · obtain ⟨n, hn, -⟩ := Option.map_eq_some_iff.mp h
        exact ⟨[], c :: rest, n, rfl, .inl rfl, hn⟩

/-- A number has a value behind each of the three signs. -/
theorem offsetValue_sign_append {sign ds : Bytes} {n : Nat} (hsign : sign = [] ∨ sign = [0x2B#8] ∨ sign = [0x2D#8])
    (hds : digitsValue ds = some n) : ∃ x, offsetValue (sign ++ ds) = some x := by
  obtain ⟨hnone, hplus, hminus⟩ := offsetValue_of_digits hds
  obtain rfl | rfl | rfl := hsign
  · exact ⟨_, hnone⟩
  · exact ⟨_, hplus⟩
  · exact ⟨_, hminus⟩

/-- Settles O42: the grammar read and written, and the value digit by digit. -/
theorem offsetGrammar : Obligations.OffsetGrammar := by
  unfold Obligations.OffsetGrammar
  refine ⟨fun t => ⟨?_, ?_⟩, fun t n c => digitsValue_concat, fun c => digitsValue_singleton,
    fun ds n => offsetValue_of_digits⟩
  · rintro ⟨x, hx⟩
    obtain ⟨sign, ds, n, hsplit, hsign, hn⟩ := offsetValue_some hx
    obtain ⟨hne, hdigits, -⟩ := (digitsValue_eq_some_iff ds n).mp hn
    exact ⟨sign, ds, hsplit, hsign, hne, hdigits⟩
  · rintro ⟨sign, ds, rfl, hsign, hne, hdigits⟩
    exact offsetValue_sign_append hsign ((digitsValue_eq_some_iff ds _).mpr ⟨hne, hdigits, rfl⟩)

/-- A value in range is returned. -/
theorem parseOffset_in_range {t : Bytes} {x : Int} (ht : offsetValue t = some x) (hx : OffsetInRange x) :
    parseOffset t = .ok x := by
  rw [parseOffset, ht]
  exact if_pos hx

/-- Settles O43: the range check, evaluated at the rule's examples. -/
theorem offsetRangeChecked : Obligations.OffsetRangeChecked := by
  unfold Obligations.OffsetRangeChecked
  refine ⟨fun t x ht => ⟨fun hx => parseOffset_out_of_range ht (by omega),
      fun hlow hhigh => parseOffset_in_range ht ⟨hlow, hhigh⟩⟩,
    parseOffset_in_range rfl (by decide), parseOffset_in_range rfl (by decide),
    parseOffset_out_of_range (x := 32768) rfl (by decide), parseOffset_out_of_range (x := -32769) rfl (by decide),
    sext16_lo16 (by decide), sext16_lo16 (by decide), parseOffset_in_range rfl (by decide),
    parseOffset_in_range rfl (by decide)⟩

/-! ### The memory operand (R110) -/

/-- Settles O44: the split accepts its own form only, and its one error is `MalformedOperands` of the line. -/
theorem memOperandSplit : Obligations.MemOperandSplit := by
  unfold Obligations.MemOperandSplit
  refine fun line t ot bt => ⟨⟨splitMem_ok, ?_⟩, fun e => splitMem_error⟩
  rintro ⟨rfl, hot, hbt⟩
  exact splitMem_of_form hot hbt

/-! ### The checks of a line in their order (R111 to R113) -/

/-- A register name is read and the reader goes on with its index (R107). -/
theorem resolve_bind_of_regIndex {α : Type} {P : Params} {t : Bytes} {r : RegIdx} (h : P.regIndex t = some r)
    (f : RegIdx → Except Err α) : (resolve P t >>= f) = f r := by
  rw [resolve_of_regIndex h, except_ok_bind]

/-- A text that is no register name ends the reading (R107). -/
theorem resolve_bind_of_regIndex_none {α : Type} {P : Params} {t : Bytes} (h : P.regIndex t = none)
    (f : RegIdx → Except Err α) : (resolve P t >>= f) = .error ⟨.unknownRegister, .text t⟩ := by
  rw [resolve, h]
  rfl

section OperandCount

variable {P : Params} {s m : Bytes} {operands : List Bytes}

theorem parseR_of_length_ne (f : Funct) (h : operands.length ≠ 3) :
    parseR P s m f operands = .error (malformedOperands s) := by
  unfold parseR
  split
  · exact absurd rfl h
  · rfl

theorem parseMem_of_length_ne (k : IMnemonic) (h : operands.length ≠ 2) :
    parseMem P s k operands = .error (malformedOperands s) := by
  unfold parseMem
  split
  · exact absurd rfl h
  · rfl

theorem parseBranch_of_length_ne (k : IMnemonic) (h : operands.length ≠ 3) :
    parseBranch P s k operands = .error (malformedOperands s) := by
  unfold parseBranch
  split
  · exact absurd rfl h
  · rfl

end OperandCount

/-- Settles O39: the reader goes on from register to register and stops at the first that has no index. -/
theorem rLinesCheckedInOrder : Obligations.RLinesCheckedInOrder := by
  unfold Obligations.RLinesCheckedInOrder
  intro P line m operands f hP ht hl
  refine ⟨fun hcount => encodeLine_error ht hl (parseR_of_length_ne f hcount), ?_⟩
  rintro d a b rfl
  refine ⟨fun hd => encodeLine_error ht hl ?_, fun rd hd => ⟨fun ha => encodeLine_error ht hl ?_,
    fun rs ha => ⟨fun hb => encodeLine_error ht hl ?_, fun rt hb => ?_⟩⟩⟩
  · rw [parseEntry, parseR, resolve_bind_of_regIndex_none hd]
  · rw [parseEntry, parseR, resolve_bind_of_regIndex hd, resolve_bind_of_regIndex_none ha]
  · rw [parseEntry, parseR, resolve_bind_of_regIndex hd, resolve_bind_of_regIndex ha, resolve_bind_of_regIndex_none hb]
  · have hread : parseEntry P (prepare P line) m [d, a, b] (.r f) = .ok (rItem m f rd rs rt) := by
      rw [parseEntry, parseR, resolve_bind_of_regIndex hd, resolve_bind_of_regIndex ha, resolve_bind_of_regIndex hb]
      rfl
    rw [encodeLine_item ht hl hread, encodeItem_rItem hP ((lookup_r_iff P m f).mp hl), composeR]

/-- The reading that the two I shapes share: offset, source and target from their three texts. -/
def readI (P : Params) (k : IMnemonic) (ot st tt : Bytes) : Except Err Item := do
  let x ← parseOffset ot
  let source ← resolve P st
  let target ← resolve P tt
  return .instr (iInstr k source target x)

theorem parseEntry_of_memory {k : IMnemonic} (hk : k.shape = .memory) (P : Params) (s m : Bytes) (operands : List Bytes) :
    parseEntry P s m operands (.i k) = parseMem P s k operands := by
  rw [parseEntry, hk]

theorem parseEntry_of_branch {k : IMnemonic} (hk : k.shape = .branch) (P : Params) (s m : Bytes) (operands : List Bytes) :
    parseEntry P s m operands (.i k) = parseBranch P s k operands := by
  rw [parseEntry, hk]

theorem parseMem_eq_readI {P : Params} {s t o ot bt : Bytes} (k : IMnemonic)
    (hsplit : splitMem s (stripSep o) = .ok (ot, bt)) : parseMem P s k [t, o] = readI P k ot bt (stripSep t) := by
  rw [parseMem, hsplit, except_ok_bind, readI]

theorem parseBranch_eq_readI (P : Params) (s : Bytes) (k : IMnemonic) (a b o : Bytes) :
    parseBranch P s k [a, b, o] = readI P k (stripSep o) (stripSep a) (stripSep b) := rfl

/-- The checks that the two I shapes share, offset, source, target, and the word they compose (R112, R113, D11). -/
theorem encodeLine_readI_in_order {P : Params} {line m : Bytes} {operands : List Bytes} {k : IMnemonic} {ot st tt : Bytes}
    (ht : tokens P (prepare P line) = m :: operands) (hl : P.lookup m = some (.i k))
    (hread : parseEntry P (prepare P line) m operands (.i k) = readI P k ot st tt) :
    (∀ e, parseOffset ot = .error e → encodeLine P line = .error ⟨.invalidOffset, .text ot⟩) ∧
    ∀ x, parseOffset ot = .ok x →
      (P.regIndex st = none → encodeLine P line = .error ⟨.unknownRegister, .text st⟩) ∧
      ∀ rs, P.regIndex st = some rs →
        (P.regIndex tt = none → encodeLine P line = .error ⟨.unknownRegister, .text tt⟩) ∧
        ∀ rt, P.regIndex tt = some rt → encodeLine P line = .word (P.iTable.opcode k ++ rs ++ rt ++ lo16 x) := by
  rw [readI] at hread
  refine ⟨fun e he => encodeLine_error ht hl ?_, fun x hx => ?_⟩
  · rw [hread, he, parseOffset_error he]
    rfl
  rw [hx, except_ok_bind] at hread
  refine ⟨fun hs => encodeLine_error ht hl ?_, fun rs hs => ⟨fun htt => encodeLine_error ht hl ?_, fun rt htt => ?_⟩⟩
  · rw [hread, resolve_bind_of_regIndex_none hs]
  · rw [hread, resolve_bind_of_regIndex hs, resolve_bind_of_regIndex_none htt]
  · rw [resolve_bind_of_regIndex hs, resolve_bind_of_regIndex htt] at hread
    rw [encodeLine_item ht hl hread, encodeItem, encode_iInstr, composeI]

/-- Settles O40: the count and the delimiters, then the checks that the I shapes share. -/
theorem memLinesCheckedInOrder : Obligations.MemLinesCheckedInOrder := by
  unfold Obligations.MemLinesCheckedInOrder
  intro P line m operands k _ ht hl hk
  have hread := parseEntry_of_memory hk P (prepare P line) m operands
  refine ⟨fun hcount => encodeLine_error ht hl (hread.trans (parseMem_of_length_ne k hcount)), ?_⟩
  rintro t o rfl
  refine ⟨fun e he => encodeLine_error ht hl ?_, fun ot bt hsplit => ?_⟩
  · rw [hread, parseMem, he, splitMem_error he]
    rfl
  · exact encodeLine_readI_in_order ht hl (hread.trans (parseMem_eq_readI k hsplit))

/-- Settles O41: the count, then the checks that the I shapes share. -/
theorem branchLinesCheckedInOrder : Obligations.BranchLinesCheckedInOrder := by
  unfold Obligations.BranchLinesCheckedInOrder
  intro P line m operands k _ ht hl hk
  have hread := parseEntry_of_branch hk P (prepare P line) m operands
  refine ⟨fun hcount => encodeLine_error ht hl (hread.trans (parseBranch_of_length_ne k hcount)), ?_⟩
  rintro a b o rfl
  exact encodeLine_readI_in_order ht hl (hread.trans (parseBranch_eq_readI P _ k a b o))

end Sys2Proof

namespace Sys2Proof.Machine

/-! ### The step that runs a line (R100) -/

/-- Settles O22: it is the Encoder's turn with the first line that fits, and its answer takes that line alone. -/
theorem stepAnswersEncoder : Obligations.StepAnswersEncoder := by
  unfold Obligations.StepAnswersEncoder
  intro s pre rest line hl hdec hsplit hpre hfits
  have ht := (s.turn_encode_iff line).mpr ⟨hdec, hfits, pre, rest, hsplit, hpre⟩
  rw [step_of_turn_encode hl ht, State.answerEnc_of_split hsplit hpre hfits]

/-- Settles O20: the instruction completes the transaction in progress with its own text or its own word, which is the step's
answer to the word or the line that gives it. -/
theorem stepRunsDecodedInstruction : Obligations.StepRunsDecodedInstruction := by
  unfold Obligations.StepRunsDecodedInstruction
  refine fun s i hl => ⟨fun w ht hw => ?_, fun line ht hline => ?_⟩
  · have htext : decodeText s.params w = renderInstr s.params i := by simp only [decodeText, hw, renderItem]
    rw [step_of_turn_decode hl ht, exec_eq_translate, translate_decode ht, htext]
  · have hword : encodeLine s.params line = .word (encode s.params i) := by
      simp only [encodeLine, hline, encodeItem]
    rw [step_of_turn_encode hl ht, exec_eq_translate, translate_encode ht, hword]

end Sys2Proof.Machine
end

section
/-! PROOF. The Decoder (41_disassembler R140 to R147): the row of a word, then its register fields in their order, the decimal
text, and the step and the instructions that deliver the result. -/

namespace Sys2Proof

/-! ### Register fields in their order (R142, R143, R145, R147, D12) -/

theorem nameOf_of_regName {P : Params} {r : RegIdx} {n : Bytes} (h : P.regName r = some n) : nameOf P r = .ok n := by
  rw [nameOf, h]

theorem nameOf_of_regName_none {P : Params} {r : RegIdx} (h : P.regName r = none) :
    nameOf P r = .error (unknownRegField r) := by
  rw [nameOf, h]

section FieldOrder

variable {P : Params} {m nd ns nt : Bytes} {d s t : RegIdx} {text : Bytes → Bytes → Bytes}

theorem renderR_source_unnamed (hs : P.regName s = none) : renderR P m d s t = .error (unknownRegField s) := by
  rw [renderR, nameOf_of_regName_none hs]

theorem renderR_target_unnamed (hs : P.regName s = some ns) (ht : P.regName t = none) :
    renderR P m d s t = .error (unknownRegField t) := by
  rw [renderR, nameOf_of_regName hs, nameOf_of_regName_none ht]

theorem renderR_dest_unnamed (hs : P.regName s = some ns) (ht : P.regName t = some nt) (hd : P.regName d = none) :
    renderR P m d s t = .error (unknownRegField d) := by
  rw [renderR, nameOf_of_regName hs, nameOf_of_regName ht, nameOf_of_regName_none hd]

theorem renderR_named (hs : P.regName s = some ns) (ht : P.regName t = some nt) (hd : P.regName d = some nd) :
    renderR P m d s t = .text (textR m nd ns nt) := by
  rw [renderR, nameOf_of_regName hs, nameOf_of_regName ht, nameOf_of_regName hd]

theorem renderI_source_unnamed (hs : P.regName s = none) : renderI P s t text = .error (unknownRegField s) := by
  rw [renderI, nameOf_of_regName_none hs]

theorem renderI_target_unnamed (hs : P.regName s = some ns) (ht : P.regName t = none) :
    renderI P s t text = .error (unknownRegField t) := by
  rw [renderI, nameOf_of_regName hs, nameOf_of_regName_none ht]

theorem renderI_named (hs : P.regName s = some ns) (ht : P.regName t = some nt) :
    renderI P s t text = .text (text ns nt) := by
  rw [renderI, nameOf_of_regName hs, nameOf_of_regName ht]

end FieldOrder

/-! ### Words of a row (R141 to R143) -/

/-- A word of opcode 0 and a known function is printed as its R row over its own fields (R142). -/
theorem decodeText_of_rByFunct {P : Params} {w : Word} {m : Bytes} (hop : opcodeOf w = 0#6)
    (hm : P.rByFunct (functOf w) = some m) : decodeText P w = renderR P m (destOf w) (sourceOf w) (targetOf w) := by
  simp only [decodeText, decodeWord, hop, if_true, hm, renderItem_rItem]

/-- A word of a known nonzero opcode is printed as its I row over its own fields (R143). -/
theorem decodeText_of_iByOp {P : Params} {w : Word} {k : IMnemonic} (hop : opcodeOf w ≠ 0#6)
    (hk : P.iByOp (opcodeOf w) = some k) :
    decodeText P w = renderI P (sourceOf w) (targetOf w) (textI k (sext16 (offsetOf w))) := by
  simp only [decodeText, decodeWord, hop, if_false, hk, renderItem, renderInstr_iInstr]

/-- Settles O12: the function decides the row, and the row's text or error is decided field by field. -/
theorem rWordsTranslateInOrder : Obligations.RWordsTranslateInOrder := by
  unfold Obligations.RWordsTranslateInOrder
  refine fun P w hop => ⟨decodeText_unknownFunction hop, fun m hm => ?_⟩
  rw [decodeText_of_rByFunct hop hm]
  exact ⟨renderR_source_unnamed, fun ns hs => ⟨renderR_target_unnamed hs,
    fun nt ht => ⟨renderR_dest_unnamed hs ht, fun nd hd => renderR_named hs ht hd⟩⟩⟩

/-- Settles O13: the opcode decides the row, the row's text or error is decided field by field, and the text is that of the
row's shape. -/
theorem iWordsTranslateInOrder : Obligations.IWordsTranslateInOrder := by
  unfold Obligations.IWordsTranslateInOrder
  refine fun P w hop => ⟨decodeText_unknownOpcode hop, fun k hk => ?_⟩
  rw [decodeText_of_iByOp hop hk]
  refine ⟨renderI_source_unnamed, fun ns hs => ⟨renderI_target_unnamed hs, fun nt ht => ?_⟩⟩
  rw [renderI_named hs ht, textI]
  cases k.shape <;> rfl

/-! ### Decimal rendering (R144) -/

/-- The sign stands apart from the digits of the magnitude. -/
theorem decText_eq_sign_append (x : Int) :
    decText x = (if x < 0 then [0x2D#8] else []) ++ natText x.natAbs x.natAbs := by
  rw [decText]
  split <;> rfl

/-- Only the spelling of 0 starts with the digit `0`, and it is that one digit. -/
theorem natText_eq_singleton_of_head_zero {n : Nat} (h : (natText n n).head? = some 0x30#8) : natText n n = [0x30#8] := by
  obtain rfl := natText_head n n (Nat.le_refl n) h
  rfl

/-- Settles O45: the digits are those of the magnitude. -/
theorem decimalReadsBack : Obligations.DecimalReadsBack := by
  unfold Obligations.DecimalReadsBack
  exact fun x => ⟨offsetValue_decText x, _, decText_eq_sign_append x, natText_ne_nil _ _, natText_digits _ _,
    natText_eq_singleton_of_head_zero⟩

end Sys2Proof

namespace Sys2Proof.Machine

/-! ### The step and the instructions in the Decoder's turn (R140, R170 to R191) -/

/-- Settles O21: it is the Decoder's turn, and its one effect is the answer. -/
theorem stepAnswersDecoder : Obligations.StepAnswersDecoder := by
  unfold Obligations.StepAnswersDecoder
  exact fun s w => step_of_turn_decode

/-- In the Decoder's turn an instruction delivers its own text or register error. -/
theorem exec_of_turn_decode {s : State} {w : Word} (ht : s.turn = .decode w) (i : Instr) :
    exec i s = .next (s.answerDec (renderInstr s.params i)) := by
  rw [exec_eq_translate, translate_decode ht]

/-- An R-row register error is what `add` delivers in the Decoder's turn. -/
theorem exec_add_error {s : State} {w : Word} {d a b : RegIdx} {e : Err} (hturn : s.turn = .decode w)
    (h : renderR s.params kwAdd d a b = .error e) : exec (.add d a b) s = .next (s.answerDec (.error e)) := by
  rw [exec_of_turn_decode hturn, renderInstr, h]

/-- An I-row register error, which is none of the text's layout, is what each of the four I-type instructions delivers. -/
theorem exec_iType_error {s : State} {w : Word} {a b : RegIdx} {e : Err} (hturn : s.turn = .decode w)
    (h : ∀ text, renderI s.params a b text = .error e) (x : Int) :
    exec (.lw b x a) s = .next (s.answerDec (.error e)) ∧ exec (.sw b x a) s = .next (s.answerDec (.error e)) ∧
    exec (.beq a b x) s = .next (s.answerDec (.error e)) ∧ exec (.bne a b x) s = .next (s.answerDec (.error e)) := by
  have each (k : IMnemonic) : exec (iInstr k a b x) s = .next (s.answerDec (.error e)) := by
    rw [exec_of_turn_decode hturn, renderInstr_iInstr, h]
  exact ⟨each .lw, each .sw, each .beq, each .bne⟩

/-- Settles O18: the row's first unnamed register is the error that its instructions deliver. -/
theorem unnamedRegisterReported : Obligations.UnnamedRegisterReported := by
  unfold Obligations.UnnamedRegisterReported
  intro s w hturn
  refine ⟨fun a b ha => ⟨fun d => ?_, ?_⟩, fun a b na ha hb => ⟨fun d => ?_, ?_⟩, fun d a b na nb ha hb hd => ?_⟩
  · exact exec_add_error hturn (renderR_source_unnamed ha)
  · exact exec_iType_error hturn fun _ => renderI_source_unnamed ha
  · exact exec_add_error hturn (renderR_target_unnamed ha hb)
  · exact exec_iType_error hturn fun _ => renderI_target_unnamed ha hb
  · exact exec_add_error hturn (renderR_dest_unnamed ha hb hd)

end Sys2Proof.Machine
end

section
/-! PROOF. The R format (42_r_format R170, R171): a row's line and word translate into each other, `add` being the row of function
32, and `exec` of `add` delivers that text or that word. -/

namespace Sys2Proof

/-! ### Lines of R rows (R111, R170, R171) -/

/-- Settles O46: the line is the canonical text of the row of `add`. -/
theorem addLineEncodes : Obligations.AddLineEncodes := by
  unfold Obligations.AddLineEncodes
  intro P d s t rd rs rt hP hp hd hs ht
  exact encodeLine_textR hP hp (rFunct_add hP) hd hs ht

/-- A word of a row of `RTable` over named registers decodes to the row's canonical text, whatever its shift amount (R142, D13). -/
theorem decodeText_of_rFields {P : Params} {w : Word} {m nd ns nt : Bytes} (hP : P.lawful = true) (hop : opcodeOf w = 0#6)
    (hm : P.rFunct m = some (functOf w)) (hd : P.regIndex nd = some (destOf w)) (hs : P.regIndex ns = some (sourceOf w))
    (ht : P.regIndex nt = some (targetOf w)) : decodeText P w = .text (textR m nd ns nt) := by
  have hname {n : Bytes} {r : RegIdx} (h : P.regIndex n = some r) : P.regName r = some n := (regName_iff_regIndex hP n r).mpr h
  rw [decodeText_of_rByFunct hop ((rByFunct_iff_rFunct hP m _).mpr hm)]
  exact renderR_named (hname hs) (hname ht) (hname hd)

/-- Settles O51: the word is printed as the row's canonical text, and that text is the line which encodes to the row's word. -/
theorem furtherRowsTranslateAsAdd : Obligations.FurtherRowsTranslateAsAdd := by
  unfold Obligations.FurtherRowsTranslateAsAdd
  intro P m d s t f rd rs rt hP hm hd hs ht
  refine ⟨?_, fun hp => encodeLine_textR hP hp hm hd hs ht⟩
  rintro w hop rfl rfl rfl rfl
  exact decodeText_of_rFields hP hop hm hd hs ht

end Sys2Proof

namespace Sys2Proof.Machine

/-! ### `add` completes (R170) -/

/-- In the Encoder's turn an instruction delivers its own word. -/
theorem exec_of_turn_encode {s : State} {line : Bytes} (ht : s.turn = .encode line) (i : Instr) :
    exec i s = .next (s.answerEnc (.word (encode s.params i))) := by
  rw [exec_eq_translate, translate_encode ht]

/-- Settles O15: over three named registers the text of `add` is its row's canonical text, and the word is its row's word. -/
theorem addCompletes : Obligations.AddCompletes := by
  unfold Obligations.AddCompletes
  intro s d a b
  constructor
  · intro w nd ns nt hturn hd ha hb
    have htext : renderInstr s.params (.add d a b) = .text (textR kwAdd nd ns nt) := renderR_named ha hb hd
    rw [exec_of_turn_decode hturn, htext]
    rfl
  · intro line hturn
    exact exec_of_turn_encode hturn _

end Sys2Proof.Machine
end

section
/-! PROOF. The I format, memory shape (43_i_memory R180, R181): the lines of `lw` and `sw` encode to their words, and `exec` of
each delivers its text or its word. -/

namespace Sys2Proof

/-- Settles O47: the line is the canonical text of its memory row. -/
theorem memLineEncodes : Obligations.MemLineEncodes := by
  unfold Obligations.MemLineEncodes
  intro P k s t rs rt x hP hp hk hs ht hx
  have hline : k.spelling ++ [0x20#8] ++ t ++ [0x2C#8, 0x20#8] ++ decText x ++ [0x28#8] ++ s ++ [0x29#8] =
      textMem k.spelling t x s := rfl
  rw [hline, encodeLine_textMem hP hp hk hs ht hx, composeI]

end Sys2Proof

namespace Sys2Proof.Machine

/-! ### `lw` and `sw` complete (R180, R181) -/

/-- In the Decoder's turn an I-type instruction over two named registers delivers its row's canonical text (R143). -/
theorem exec_iInstr_named {s : State} {w : Word} {a b : RegIdx} {na nb : Bytes} (hturn : s.turn = .decode w)
    (ha : s.params.regName a = some na) (hb : s.params.regName b = some nb) (k : IMnemonic) (x : Int) :
    exec (iInstr k a b x) s = .next (s.answerDec (.text (textI k x na nb))) := by
  rw [exec_of_turn_decode hturn, renderInstr_iInstr, renderI_named ha hb]

/-- In the Encoder's turn an I-type instruction delivers its row's word (R62). -/
theorem exec_iInstr_word {s : State} {line : Bytes} (hturn : s.turn = .encode line) (k : IMnemonic) (a b : RegIdx) (x : Int) :
    exec (iInstr k a b x) s = .next (s.answerEnc (.word (composeI (s.params.iTable.opcode k) a b x))) := by
  rw [exec_of_turn_encode hturn, encode_iInstr]

/-- Settles O16: `lw` and `sw` are the I-type instructions of the memory shape, each delivering its row's text or its row's word. -/
theorem memInstructionsComplete : Obligations.MemInstructionsComplete := by
  unfold Obligations.MemInstructionsComplete
  intro s b x a
  constructor
  · intro w na nb hturn ha hb
    exact ⟨exec_iInstr_named hturn ha hb .lw x, exec_iInstr_named hturn ha hb .sw x⟩
  · intro line hturn
    exact ⟨exec_iInstr_word hturn .lw a b x, exec_iInstr_word hturn .sw a b x⟩

end Sys2Proof.Machine
end

section
/-! PROOF. The I format, branch shape (44_i_branch R190, R191): the lines of `beq` and `bne` encode to their words, and `exec` of
each delivers its text or its word. -/

namespace Sys2Proof

/-- Settles O48: the line is the canonical text of its branch row. -/
theorem branchLineEncodes : Obligations.BranchLineEncodes := by
  unfold Obligations.BranchLineEncodes
  intro P k s t rs rt x hP hp hk hs ht hx
  have hline : k.spelling ++ [0x20#8] ++ s ++ [0x2C#8, 0x20#8] ++ t ++ [0x2C#8, 0x20#8] ++ decText x =
      textBranch k.spelling s t x := rfl
  rw [hline, encodeLine_textBranch hP hp hk hs ht hx, composeI]

end Sys2Proof

namespace Sys2Proof.Machine

/-! ### `beq` and `bne` complete (R190, R191) -/

/-- Settles O17: `beq` and `bne` are the I-type instructions of the branch shape, each delivering its row's text or its row's
word. -/
theorem branchInstructionsComplete : Obligations.BranchInstructionsComplete := by
  unfold Obligations.BranchInstructionsComplete
  intro s a b x
  constructor
  · intro w na nb hturn ha hb
    exact ⟨exec_iInstr_named hturn ha hb .beq x, exec_iInstr_named hturn ha hb .bne x⟩
  · intro line hturn
    exact ⟨exec_iInstr_word hturn .beq a b x, exec_iInstr_word hturn .bne a b x⟩

end Sys2Proof.Machine
end

section
/-! PROOF. Errors and their reporting (60_exceptions R200 to R209): every result a port can deliver, the invariant of the step, and
the host's report of a batch. -/

namespace Sys2Proof

/-! ### Errors of the Encoder (R114) -/

/-- An error of a line is an unknown mnemonic, or an error of the operands of a line that is not blank (R114). -/
theorem encodeLine_error_cases {P : Params} {line : Bytes} {e : Err} (h : encodeLine P line = .error e) :
    (∃ m, m ≠ [] ∧ e = unknownInstruction m) ∨ (∃ s, s ≠ [] ∧ e = malformedOperands s) ∨
    (∃ t, e = unknownRegText t) ∨ ∃ t, e = invalidOffset t := by
  cases ht : tokens P (prepare P line) with
  | nil => simp [encodeLine, parseLine, ht] at h
  | cons m operands =>
    cases hl : P.lookup m with
    | none =>
      rw [encodeLine_unknownInstruction ht hl, EncResult.error.injEq] at h
      have hne : m ≠ [] := (mem_tokensFrom (prepare P line) [] (by simp) m (by rw [← tokens, ht]; simp)).1
      exact .inl ⟨m, hne, h.symm⟩
    | some entry =>
      have hne : prepare P line ≠ [] := by
        intro h0
        rw [h0] at ht
        cases ht
      cases hp : parseEntry P (prepare P line) m operands entry with
      | ok item =>
        rw [encodeLine_item ht hl hp] at h
        cases h
      | error e' =>
        rw [encodeLine_error ht hl hp, EncResult.error.injEq] at h
        exact .inr ((parseEntry_error (h ▸ hp)).imp_left fun he => ⟨_, hne, he⟩)

/-! ### Errors of the Decoder (R147) -/

theorem renderR_error {P : Params} {m : Bytes} {d s t : RegIdx} {e : Err} (h : renderR P m d s t = .error e) :
    ∃ r, e = unknownRegField r := by
  rw [renderR] at h
  split at h
  · next hs => exact ⟨s, DecResult.error.inj h ▸ nameOf_error hs⟩
  · next ht => exact ⟨t, DecResult.error.inj h ▸ nameOf_error ht⟩
  · next hd => exact ⟨d, DecResult.error.inj h ▸ nameOf_error hd⟩
  · cases h

theorem renderI_error {P : Params} {s t : RegIdx} {text : Bytes → Bytes → Bytes} {e : Err}
    (h : renderI P s t text = .error e) : ∃ r, e = unknownRegField r := by
  rw [renderI] at h
  split at h
  · next hs => exact ⟨s, DecResult.error.inj h ▸ nameOf_error hs⟩
  · next ht => exact ⟨t, DecResult.error.inj h ▸ nameOf_error ht⟩
  · cases h

/-- An error of a word is an unknown function, an unknown opcode, which is not 0, or a register field without a name (R147). -/
theorem decodeText_error_cases {P : Params} {w : Word} {e : Err} (h : decodeText P w = .error e) :
    (∃ f, e = unknownFunction f) ∨ (∃ op, op ≠ 0#6 ∧ e = unknownOpcode op) ∨ ∃ r, e = unknownRegField r := by
  by_cases hop : opcodeOf w = 0#6
  · cases hm : P.rByFunct (functOf w) with
    | none =>
      rw [decodeText_unknownFunction hop hm, DecResult.error.injEq] at h
      exact .inl ⟨_, h.symm⟩
    | some m =>
      rw [decodeText_of_rByFunct hop hm] at h
      exact .inr (.inr (renderR_error h))
  · cases hk : P.iByOp (opcodeOf w) with
    | none =>
      rw [decodeText_unknownOpcode hop hk, DecResult.error.injEq] at h
      exact .inr (.inl ⟨_, hop, h.symm⟩)
    | some k =>
      rw [decodeText_of_iByOp hop hk] at h
      exact .inr (.inr (renderI_error h))

/-! ### Canonical text and framed words are not empty -/

theorem textR_ne_nil (m nd ns nt : Bytes) : textR m nd ns nt ≠ [] := by simp [textR, space]

theorem textI_ne_nil (k : IMnemonic) (x : Int) (ns nt : Bytes) : textI k x ns nt ≠ [] := by
  cases k <;> simp [textI, IMnemonic.shape, textMem, textBranch, space]

theorem decodeText_ne_nil {P : Params} {w : Word} {c : Bytes} (hP : P.lawful = true) (h : decodeText P w = .text c) :
    c ≠ [] := by
  obtain ⟨-, m, nd, ns, nt, -, -, -, -, rfl⟩ | ⟨-, k, ns, nt, -, -, -, rfl⟩ := decodeText_text hP h
  · exact textR_ne_nil m nd ns nt
  · exact textI_ne_nil k _ ns nt

theorem wordsOfBytes_ne_nil {b : Bytes} (hne : b ≠ []) (hlen : b.length % 4 = 0) : wordsOfBytes b ≠ [] := by
  intro h
  have hb := streamBytes_wordsOfBytes b hlen
  rw [h, streamBytes_nil] at hb
  exact hne hb.symm

theorem wordsOfBits_ne_nil {n : Nat} (hn : n ≠ 0) (t : Bytes) : wordsOfBits n t ≠ [] := by
  cases n with
  | zero => exact absurd rfl hn
  | succ n => simp [wordsOfBits]

end Sys2Proof

namespace Sys2Proof.Machine

/-! ### What each port can deliver (R200, R201) -/

/-- Every result of the Encoder is one that it can deliver: a word is that of a row over named registers, which decodes (R79). -/
theorem encResultOk_encodeLine {P : Params} (hP : P.lawful = true) (line : Bytes) :
    encResultOk P (encodeLine P line) = true := by
  cases h : encodeLine P line with
  | empty => rfl
  | word w =>
    obtain ⟨_, -, -, hrow⟩ := encodeLine_word hP h
    obtain ⟨f, d, s, t, nd, ns, nt, -, hm, hd, hs, ht, rfl⟩ | ⟨k, s, t, x, ns, nt, -, hs, ht, hx, rfl⟩ := hrow
    · simp [encResultOk, decodeText_composeR hP hm hd hs ht, isText, shamtOf_composeR]
    · simp [encResultOk, decodeText_composeI hP hs ht hx, isText, opcodeOf_composeI, opcode_ne_zero hP k]
  | error e =>
    obtain ⟨m, hm, rfl⟩ | ⟨s, hs, rfl⟩ | ⟨t, rfl⟩ | ⟨t, rfl⟩ := encodeLine_error_cases h
    · simpa [encResultOk, unknownInstruction] using hm
    · simpa [encResultOk, malformedOperands] using hs
    · rfl
    · rfl

/-- Every result of the Decoder is one that it can deliver. -/
theorem decResultOk_decodeText {P : Params} (hP : P.lawful = true) (w : Word) : decResultOk (decodeText P w) = true := by
  cases h : decodeText P w with
  | text c => simpa [decResultOk] using decodeText_ne_nil hP h
  | error e =>
    obtain ⟨f, rfl⟩ | ⟨op, hop, rfl⟩ | ⟨r, rfl⟩ := decodeText_error_cases h
    · simpa [decResultOk, unknownFunction] using f.isLt
    · have hpos : 0 < op.toNat := Nat.pos_of_ne_zero fun h0 => hop (BitVec.eq_of_toNat_eq h0)
      simpa [decResultOk, unknownOpcode, hpos] using op.isLt
    · simpa [decResultOk, unknownRegField] using r.isLt

/-- A length that is not 0 is a payload of `InvalidWordLength` (R44, R45). -/
theorem frameResultOk_invalidWordLength {b : Bytes} (hne : b ≠ []) :
    frameResultOk (.error (invalidWordLength b.length)) = true := by
  simpa [frameResultOk, invalidWordLength] using List.length_pos_iff.mpr hne

/-- Every framing result is one that the adapters can deliver. -/
theorem frameResultOk_frame (x : Stream) : frameResultOk (frame x) = true := by
  cases x with
  | byteStream b =>
    by_cases hne : b = []
    · rw [hne]; rfl
    by_cases hlen : b.length % 4 = 0
    · simpa [frame_byteStream_words hne hlen, frameResultOk] using wordsOfBytes_ne_nil hne hlen
    · rw [frame_byteStream_error hlen]
      exact frameResultOk_invalidWordLength hne
  | bitString t =>
    by_cases hne : t = []
    · rw [hne]; rfl
    by_cases hlen : t.length % 32 = 0
    · by_cases hd : ∀ c ∈ t, c = 0x30#8 ∨ c = 0x31#8
      · have hpos := List.length_pos_iff.mpr hne
        simpa [frame_bitString_words hne hlen hd, frameResultOk] using
          wordsOfBits_ne_nil (n := t.length / 32) (by omega) t
      · push Not at hd
        obtain ⟨c, hc, h0, h1⟩ := hd
        rw [frame_bitString_char_error hc h0 h1]
        exact frameResultOk_invalidWordLength hne
    · rw [frame_bitString_length_error hlen]
      exact frameResultOk_invalidWordLength hne

/-! ### The invariant of the step (R29, R200, R201, R231) -/

theorem State.Inv.answerEnc {s : State} {r : EncResult} (h : s.Inv) (hr : encResultOk s.params r = true) :
    (s.answerEnc r).Inv := by
  obtain ⟨hl, henc, hdec, hframer⟩ := h
  exact ⟨hl, List.forall_mem_append.mpr ⟨henc, List.forall_mem_singleton.mpr hr⟩, hdec, hframer⟩

theorem State.Inv.answerDec {s : State} {r : DecResult} (h : s.Inv) (hr : decResultOk r = true) : (s.answerDec r).Inv := by
  obtain ⟨hl, henc, hdec, hframer⟩ := h
  exact ⟨hl, henc, List.forall_mem_append.mpr ⟨hdec, List.forall_mem_singleton.mpr hr⟩, hframer⟩

theorem State.Inv.answerFrame {s : State} {r : FrameResult} (h : s.Inv) (hr : frameResultOk r = true) :
    (s.answerFrame r).Inv := by
  obtain ⟨hl, henc, hdec, hframer⟩ := h
  rw [State.Inv, State.answerFrame_params, State.answerFrame_enc, State.answerFrame_dec_results,
    State.answerFrame_framer]
  exact ⟨hl, henc, hdec, List.forall_mem_append.mpr ⟨hframer, List.forall_mem_singleton.mpr hr⟩⟩

/-- Settles O29: a step appends at most one result, and what each unit computes is a result that its port can deliver. -/
theorem stepKeepsInv : Obligations.StepKeepsInv := by
  unfold Obligations.StepKeepsInv
  intro s s' hinv h
  obtain ⟨hl, ⟨w, -, rfl⟩ | ⟨line, -, rfl⟩ | ⟨x, -, rfl⟩ | ⟨-, rfl⟩⟩ := step_cases h
  · exact hinv.answerDec (decResultOk_decodeText hl w)
  · exact hinv.answerEnc (encResultOk_encodeLine hl line)
  · exact hinv.answerFrame (frameResultOk_frame x)
  · exact hinv

/-! ### The host's error list (R208, D27) -/

theorem encError?_eq_some_iff (r : EncResult) (e : Err) : encError? r = some e ↔ r = .error e := by
  cases r <;> simp [encError?]

theorem decError?_eq_some_iff (r : DecResult) (e : Err) : decError? r = some e ↔ r = .error e := by
  cases r <;> simp [decError?]

theorem frameError?_eq_some_iff (r : FrameResult) (e : Err) : frameError? r = some e ↔ r = .error e := by
  cases r <;> simp [frameError?]

section ErrorList

variable {β : Type} {error? : β → Option Err}

/-- Index `k` is paired with the error of the result at place `k`, the first place being `n`. -/
theorem mem_indexedFrom_iff (rs : List β) (n k : Nat) (e : Err) :
    (k, e) ∈ indexedFrom error? n rs ↔ n ≤ k ∧ ∃ r, rs[k - n]? = some r ∧ error? r = some e := by
  induction rs generalizing n with
  | nil => simp [indexedFrom]
  | cons r rest ih =>
    have hhead : (k, e) ∈ ((error? r).map fun e => (n, e)).toList ↔ k = n ∧ error? r = some e := by
      cases error? r <;> simp [eq_comm]
    rw [indexedFrom, List.mem_append, hhead, ih]
    obtain hlt | rfl | hgt := Nat.lt_trichotomy k n
    · simp [show ¬ n ≤ k by omega, show ¬ n + 1 ≤ k by omega, hlt.ne]
    · simp
    · have hplace : k - n = (k - (n + 1)) + 1 := by omega
      simp [hplace, hgt.le, hgt.ne', Nat.succ_le_of_lt hgt]

/-- The indices rise along the list, since the errors behind a result have indices behind its own. -/
theorem indexedFrom_pairwise_lt (rs : List β) (n : Nat) : (indexedFrom error? n rs).Pairwise fun a b => a.1 < b.1 := by
  induction rs generalizing n with
  | nil => exact List.Pairwise.nil
  | cons r rest ih =>
    have hbehind (a : Nat × Err) (ha : a ∈ indexedFrom error? (n + 1) rest) : n < a.1 :=
      ((mem_indexedFrom_iff rest (n + 1) a.1 a.2).mp ha).1
    rw [indexedFrom]
    cases error? r with
    | none => exact ih (n + 1)
    | some e => exact List.pairwise_cons.mpr ⟨hbehind, ih (n + 1)⟩

theorem mem_indexedErrors_iff {rs : List β} {error : Err → β} (herror : ∀ r e, error? r = some e ↔ r = error e) (k : Nat)
    (e : Err) : (k, e) ∈ indexedErrors error? rs ↔ 0 < k ∧ rs[k - 1]? = some (error e) := by
  simp [indexedErrors, mem_indexedFrom_iff, herror, Nat.succ_le_iff]

/-- No error is listed exactly when no result is an error. -/
theorem indexedErrors_eq_nil_iff {rs : List β} {error : Err → β} (herror : ∀ r e, error? r = some e ↔ r = error e) :
    indexedErrors error? rs = [] ↔ ∀ e, error e ∉ rs := by
  constructor
  · intro hnil e hmem
    obtain ⟨i, hi⟩ := List.mem_iff_getElem?.mp hmem
    have hlisted : (i + 1, e) ∈ indexedErrors error? rs := (mem_indexedErrors_iff herror _ _).mpr ⟨i.succ_pos, hi⟩
    simp [hnil] at hlisted
  · intro hclean
    refine List.eq_nil_iff_forall_not_mem.mpr fun ⟨k, e⟩ hlisted => ?_
    obtain ⟨-, hplace⟩ := (mem_indexedErrors_iff herror k e).mp hlisted
    exact hclean e (List.mem_of_getElem? hplace)

end ErrorList

/-- Settles O59: at both ports the list is the shared one, counted from 1, of the results that are errors. -/
theorem errorsNumberedFromOne : Obligations.ErrorsNumberedFromOne := by
  unfold Obligations.ErrorsNumberedFromOne
  exact ⟨fun rs => mem_indexedErrors_iff encError?_eq_some_iff, fun rs => mem_indexedErrors_iff decError?_eq_some_iff,
    fun rs => indexedFrom_pairwise_lt rs 1, fun rs => indexedFrom_pairwise_lt rs 1⟩

/-! ### Status and output of a batch (R208, R209) -/

theorem statusOf_eq_zero_iff (failed : Bool) : statusOf failed = .zero ↔ failed = false := by
  cases failed <;> simp [statusOf]

/-- Neither policy holds back anything of a batch whose status is zero. -/
theorem committed_of_status_zero {γ : Type} {failed : Bool} (h : statusOf failed = .zero) (p : BatchCommit)
    (outputs : List γ) : committed p failed outputs = outputs := by
  rw [(statusOf_eq_zero_iff failed).mp h]
  cases p <;> rfl

theorem frameErrors_eq_nil_iff (fs : List FrameResult) : fs.filterMap frameError? = [] ↔ ∀ e, .error e ∉ fs := by
  simp only [List.filterMap_eq_nil_iff, Option.eq_none_iff_forall_ne_some, ne_eq, frameError?_eq_some_iff]
  exact ⟨fun h e he => h _ he e rfl, fun h r hr e he => h e (he ▸ hr)⟩

theorem encReport_status_zero_iff (p : BatchCommit) (es : List EncResult) :
    (encReport p es).status = .zero ↔ ∀ e, .error e ∉ es := by
  simp [encReport, statusOf_eq_zero_iff, indexedErrors_eq_nil_iff encError?_eq_some_iff]

theorem decReport_status_zero_iff (p : BatchCommit) (fs : List FrameResult) (ds : List DecResult) :
    (decReport p fs ds).status = .zero ↔ (∀ e, .error e ∉ ds) ∧ ∀ e, .error e ∉ fs := by
  rw [← frameErrors_eq_nil_iff, ← indexedErrors_eq_nil_iff decError?_eq_some_iff]
  simp [decReport, statusOf_eq_zero_iff]

theorem map_text_filterMap_decText? {ds : List DecResult} (h : ∀ e, .error e ∉ ds) :
    (ds.filterMap decText?).map DecResult.text = ds := by
  induction ds with
  | nil => rfl
  | cons d ds ih =>
    cases d with
    | text t => simpa [decText?] using ih fun e he => h e (List.mem_cons_of_mem _ he)
    | error e => exact absurd List.mem_cons_self (h e)

theorem encReport_output_of_zero {p : BatchCommit} {es : List EncResult} (h : (encReport p es).status = .zero) :
    (encReport p es).output = es.filterMap encWord? :=
  committed_of_status_zero h p _

theorem decReport_output_of_zero {p : BatchCommit} {fs : List FrameResult} {ds : List DecResult}
    (h : (decReport p fs ds).status = .zero) : (decReport p fs ds).output = ds.filterMap decText? :=
  committed_of_status_zero h p _

/-- Settles O60: the status looks at the two error lists alone, and a clean batch's output is held back by neither policy. -/
theorem cleanBatchCommitted : Obligations.CleanBatchCommitted := by
  unfold Obligations.CleanBatchCommitted
  intro p es fs ds
  refine ⟨encReport_status_zero_iff p es, fun h => ?_, decReport_status_zero_iff p fs ds, fun h => ?_⟩
  · rw [encOutputBytes, encReport_output_of_zero h]
    exact ⟨rfl, rfl⟩
  · rw [decReport_output_of_zero h, map_text_filterMap_decText? ((decReport_status_zero_iff p fs ds).mp h).1]

end Sys2Proof.Machine
end

section
/-! PROOF. Reset and hazards (70_reset_and_hazards R230 to R234): a state no step from which is refused stays one, every step from it
answers, and what reset of a running block does cannot be told from the results that follow. -/

namespace Sys2Proof.Machine

/-! ### Safe states answer and stay safe (R30, R47, R234) -/

/-- Under lawful tables only the turn of an overlong line keeps a step from answering. -/
theorem step_next_of_not_overlong {s : State} (hl : s.params.lawful = true) (ht : ∀ line, s.turn ≠ .overlong line) :
    ∃ s', step s = .next s' := by
  rw [step_eq hl]
  cases hturn : s.turn with
  | overlong line => exact absurd hturn (ht line)
  | decode w => exact ⟨_, rfl⟩
  | encode line => exact ⟨_, rfl⟩
  | frame x => exact ⟨_, rfl⟩
  | idle => exact ⟨_, rfl⟩

/-- A line whose turn has no transition is one that waits and does not fit, and none such waits in a safe state. -/
theorem State.Safe.turn_ne_overlong {s : State} (h : s.Safe) (line : Bytes) : s.turn ≠ .overlong line := by
  intro ht
  obtain ⟨-, hfits⟩ := h
  obtain ⟨-, -, hoverlong, rest, hcons⟩ := (s.turn_overlong_iff line).mp ht
  have hline : line ∈ s.enc.requests := by simp [hcons]
  exact Bool.false_ne_true ((hoverlong line hline).symm.trans (hfits line hline))

/-- No step adds a line to those that wait: lines come from outside alone (R30). -/
theorem step_enc_requests_subset {s s' : State} (h : step s = .next s') : s'.enc.requests ⊆ s.enc.requests := by
  obtain ⟨-, ⟨w, -, rfl⟩ | ⟨line, -, rfl⟩ | ⟨x, -, rfl⟩ | ⟨-, rfl⟩⟩ := step_cases h
  · exact List.Subset.refl _
  · exact List.eraseP_subset
  · rw [State.answerFrame_enc]
    exact List.Subset.refl _
  · exact List.Subset.refl _

theorem step_keeps_safe {s s' : State} (hsafe : s.Safe) (h : step s = .next s') : s'.Safe := by
  obtain ⟨hl, hfits⟩ := hsafe
  obtain ⟨hparams, -⟩ := stepKeepsTablesAndResults s s' h
  rw [State.Safe, hparams]
  exact ⟨hl, fun line hline => hfits line (step_enc_requests_subset h hline)⟩

/-- Settles O31: in a safe state no overlong line is in progress, so the step answers; what it answers is one transaction. -/
theorem safeStepAnswers : Obligations.SafeStepAnswers := by
  unfold Obligations.SafeStepAnswers
  intro s hsafe
  obtain ⟨s', hstep⟩ := step_next_of_not_overlong hsafe.1 hsafe.turn_ne_overlong
  obtain ⟨-, hone⟩ := stepIsOneTransaction s s' hstep
  exact ⟨s', hstep, step_keeps_safe hsafe hstep, hone⟩

/-! ### Reset of a running block (R230) -/

/-- Settles O33: reset leaves no request at any port, so the first one after it is alone, and it is answered as the steps at the
Decoder and at the Encoder answer any other. -/
theorem resetPortsUnobservable : Obligations.ResetPortsUnobservable := by
  unfold Obligations.ResetPortsUnobservable
  intro s
  refine ⟨rfl, (State.turn_idle_iff _).mpr ⟨rfl, rfl, rfl⟩, rfl, fun w hl => ?_, fun line hl hfits => ?_⟩
  · have hturn : (s.resetPorts.presentWord w).turn = .decode w := (State.turn_decode_iff _ w).mpr ⟨[], rfl⟩
    exact step_of_turn_decode (s := s.resetPorts.presentWord w) hl hturn
  · exact stepAnswersEncoder (s.resetPorts.presentLine line) [] [] line hl rfl rfl (by simp) hfits

end Sys2Proof.Machine
end
